-- ==== Sys2Proof/Word.lean ====
section
/-! DEFINITION. The containers the model carries words in. -/

namespace Sys2Proof

/-- A container as wide as the widest legal port (R9: W is at most 64). An instance of a smaller W uses
its low W bits (log 3). The functional units themselves work on `BitVec W`. -/
abbrev Word := BitVec 64

/-- One character of the STR response field (R26, R41). -/
abbrev Byte := BitVec 8

end Sys2Proof
end

