-- ==== Sys2Proof/Config.lean ====
section
/-! DEFINITION. The parameters an instance of the block is built with (spec/00_scope.md section 3), and the
free value of ADD_DELTA. -/

namespace Sys2Proof

/-- The legal word widths (R9). No other width has a value of this type (R200). -/
inductive Width where
  | w8 | w16 | w32 | w64
  deriving DecidableEq, Repr

/-- The width in bits. -/
def Width.bits : Width → Nat
  | .w8 => 8
  | .w16 => 16
  | .w32 => 32
  | .w64 => 64

/-- The parameter ZERO_RENDER (R12). -/
inductive ZeroRender where
  | empty
  | digit
  deriving DecidableEq, Repr

/-- The parameters of an instance (R9 to R13). They are fixed when it is built: no step changes them
(R24, R242). -/
structure Config where
  /-- `W` (R9). -/
  width : Width
  /-- `HAS_SAT` (R10). -/
  hasSat : Bool
  /-- `HAS_ADD` (R11). -/
  hasAdd : Bool
  /-- `ZERO_RENDER` (R12). -/
  zeroRender : ZeroRender
  /-- `LATENCY` (R13): one number for each value of REQ.OP. No rule reads it (R250). -/
  latency : Vector Nat 16
  deriving DecidableEq, Repr

/-- `W`, the width of REQ.A, REQ.B and RSP.RESULT (R9, R14). -/
abbrev Config.W (c : Config) : Nat := c.width.bits

/-- `LATENCY` of an opcode (R13). It can't depend on the operands (R250). -/
def Config.latencyOf (c : Config) (op : BitVec 4) : Nat := c.latency[op.toFin]

/-- Why an instance can't be built (R200). -/
inductive ConfigError where
  /-- The width parameter is not 8, 16, 32 or 64. -/
  | illegalWidth (w : Nat)
  deriving DecidableEq, Repr

/-- Building an instance from a width parameter (R200, the `configure` row of R214): every W outside
{8, 16, 32, 64} is refused. -/
def Config.build (w : Nat) (hasSat hasAdd : Bool) (zeroRender : ZeroRender) (latency : Vector Nat 16) :
    Except ConfigError Config :=
  match w with
  | 8 => .ok ⟨.w8, hasSat, hasAdd, zeroRender, latency⟩
  | 16 => .ok ⟨.w16, hasSat, hasAdd, zeroRender, latency⟩
  | 32 => .ok ⟨.w32, hasSat, hasAdd, zeroRender, latency⟩
  | 64 => .ok ⟨.w64, hasSat, hasAdd, zeroRender, latency⟩
  | w => .error (.illegalWidth w)

/-- The instance `State.reset` stands for: the spec's defaults of HAS_SAT, HAS_ADD and ZERO_RENDER
(R10, R11, R12). The spec gives W and LATENCY no default: W = 8 and LATENCY = 0 are DESIGN CHOICES
(log 1, unsafe for claims about `State.reset` alone). -/
def Config.standard : Config := ⟨.w8, true, true, .empty, Vector.replicate 16 0⟩

/-- The free value of ADD_DELTA out of range (R171: "a model draws it with no law"): draw number `n` for
the operands `a` and `b`. It has no body, so nothing can be proved of it (log 2). -/
opaque Config.freeWord : (n : Nat) → (a b : Word) → Word

end Sys2Proof
end

