-- ==== Sys2Proof/Syntax.lean ====
section
/-! DEFINITION. Requests, instructions (decoded requests) and the assembler's lines. -/

namespace Sys2Proof

/-- What the request ports carry (R25, R60). `a` and `b` are containers: an instance drives and reads their
low W bits (log 3). -/
structure Request where
  /-- `REQ.OP`. -/
  op : BitVec 4
  /-- `REQ.A`. -/
  a : Word
  /-- `REQ.B`. -/
  b : Word
  deriving DecidableEq, Repr

/-- One constructor for each row of the opcode map (R64). Each keeps both operands of its request, so that
no bit of a request is lost; whether an operand is read is the meaning's affair (R63). -/
inductive Instr where
  /-- 0x0 TO_GREY (R102). -/
  | toGrey (a b : Word)
  /-- 0x1 FROM_GREY (R106). -/
  | fromGrey (a b : Word)
  /-- 0x2 INC (R126). -/
  | inc (a b : Word)
  /-- 0x3 DEC (R127). -/
  | dec (a b : Word)
  /-- 0x4 INC_SAT (R128). -/
  | incSat (a b : Word)
  /-- 0x5 DEC_SAT (R129). -/
  | decSat (a b : Word)
  /-- 0x6 RENDER (R151). -/
  | render (a b : Word)
  /-- 0x7 ADD_DELTA (R170). -/
  | addDelta (a b : Word)
  /-- A reserved or absent opcode (R66). -/
  | reserved (op : BitVec 4) (a b : Word)
  deriving DecidableEq, Repr

/-- A line of the assembler syntax, its literals read (R68). -/
inductive AsmLine where
  | toGrey (a : Nat)
  | fromGrey (a : Nat)
  | inc (a : Nat)
  | dec (a : Nat)
  | incSat (a : Nat)
  | decSat (a : Nat)
  | render (a : Nat)
  | addDelta (a : Nat) (d : Int)
  /-- `.op <n>, <a>, <b>`: a raw request. -/
  | raw (n a b : Nat)
  deriving DecidableEq, Repr

/-- Why a line of text is no request (R68). -/
inductive AsmError where
  /-- The line is not of one of the forms of R68. -/
  | malformed
  /-- A literal lies outside the range R68 gives it. -/
  | outOfRange
  deriving DecidableEq, Repr

end Sys2Proof
end

