-- ==== Sys2Proof/WellFormed.lean ====
section
/-! DEFINITION. Which instructions an instance's decoder can give. -/

namespace Sys2Proof

/-- A container value that W wires can carry (R14: the domain is [0, 2^W − 1]). -/
def Config.fits (c : Config) (x : Word) : Bool := decide (x.toNat < 2 ^ c.W)

/-- The reserved encodings of R66: 0x8 to 0xF always, 0x4 and 0x5 without HAS_SAT, 0x7 without HAS_ADD. -/
def Config.isReserved (c : Config) (op : BitVec 4) : Bool :=
  decide (8 ≤ op.toNat) || (!c.hasSat && (op == 4#4 || op == 5#4)) || (!c.hasAdd && op == 7#4)

/-- A request that the W-bit ports of an instance can carry. Every OP value is legal (R25). -/
def Request.wf (c : Config) (r : Request) : Bool := c.fits r.a && c.fits r.b

/-- A well-formed instruction of an instance: operands of W bits, and an opcode that is present (R64) or,
for `reserved`, absent (R66). -/
def Instr.wf (c : Config) : Instr → Bool
  | .toGrey a b => c.fits a && c.fits b
  | .fromGrey a b => c.fits a && c.fits b
  | .inc a b => c.fits a && c.fits b
  | .dec a b => c.fits a && c.fits b
  | .incSat a b => c.hasSat && c.fits a && c.fits b
  | .decSat a b => c.hasSat && c.fits a && c.fits b
  | .render a b => c.fits a && c.fits b
  | .addDelta a b => c.hasAdd && c.fits a && c.fits b
  | .reserved op a b => c.isReserved op && c.fits a && c.fits b

end Sys2Proof
end

