-- ==== Sys2Proof/Decode.lean ====
section
/-! DEFINITION. The decoder, total on any word, and the encoder (spec/30_encoding.md). -/

namespace Sys2Proof

/-- Why a number is no request word. -/
inductive DecodeError where
  /-- A request word has 2W+4 bits (R61), and the number has more. -/
  | tooLong (w : Nat)
  deriving DecidableEq, Repr

/-- How many bits a packed request has (R61). -/
def requestBits (c : Config) : Nat := 2 * c.W + 4

/-- The fields of a packed request (R61): OP at [3:0], A at [W+3:4], B at [2W+3:W+4]. R61 says nothing of a number
with more bits. DESIGN CHOICE (log 7): the bits at 2W+4 and above are dropped here, and `decode` refuses such a number
before it gets here. -/
def unpackRequest (c : Config) (w : Nat) : Request where
  op := BitVec.ofNat 4 w
  a := BitVec.ofNat 64 ((w >>> 4) % 2 ^ c.W)
  b := BitVec.ofNat 64 ((w >>> (c.W + 4)) % 2 ^ c.W)

/-- `REQWORD = (B << (W+4)) OR (A << 4) OR OP`, an exact integer (R61). -/
def packRequest (c : Config) (r : Request) : Nat :=
  (r.b.toNat <<< (c.W + 4)) ||| (r.a.toNat <<< 4) ||| r.op.toNat

/-- The decoder of R65. It reads REQ.OP, HAS_SAT and HAS_ADD only, and every value of REQ.OP selects one
row. -/
def decodeRequest (c : Config) (r : Request) : Instr :=
  match r.op.toNat with
  | 0x0 => .toGrey r.a r.b
  | 0x1 => .fromGrey r.a r.b
  | 0x2 => .inc r.a r.b
  | 0x3 => .dec r.a r.b
  | 0x4 => if c.hasSat then .incSat r.a r.b else .reserved r.op r.a r.b
  | 0x5 => if c.hasSat then .decSat r.a r.b else .reserved r.op r.a r.b
  | 0x6 => .render r.a r.b
  | 0x7 => if c.hasAdd then .addDelta r.a r.b else .reserved r.op r.a r.b
  | _ => .reserved r.op r.a r.b

/-- Decoding a packed request word of an instance. A number with more than 2W+4 bits is refused by name,
a DESIGN CHOICE (log 7). -/
def decode (c : Config) (w : Nat) : Except DecodeError Instr :=
  if w < 2 ^ requestBits c then .ok (decodeRequest c (unpackRequest c w)) else .error (.tooLong w)

/-- The opcode of an instruction (R64). -/
def Instr.opcode : Instr → BitVec 4
  | .toGrey _ _ => 0x0#4
  | .fromGrey _ _ => 0x1#4
  | .inc _ _ => 0x2#4
  | .dec _ _ => 0x3#4
  | .incSat _ _ => 0x4#4
  | .decSat _ _ => 0x5#4
  | .render _ _ => 0x6#4
  | .addDelta _ _ => 0x7#4
  | .reserved op _ _ => op

/-- What stands on REQ.A for an instruction. -/
def Instr.operandA : Instr → Word
  | .toGrey a _ | .fromGrey a _ | .inc a _ | .dec a _ | .incSat a _ | .decSat a _ | .render a _
  | .addDelta a _ | .reserved _ a _ => a

/-- What stands on REQ.B for an instruction. -/
def Instr.operandB : Instr → Word
  | .toGrey _ b | .fromGrey _ b | .inc _ b | .dec _ b | .incSat _ b | .decSat _ b | .render _ b
  | .addDelta _ b | .reserved _ _ b => b

/-- The request that issues an instruction (R60). -/
def Instr.toRequest (i : Instr) : Request := ⟨i.opcode, i.operandA, i.operandB⟩

/-- The request word of an instruction (R61, R64). -/
def encode (c : Config) (i : Instr) : Nat := packRequest c i.toRequest

/-- The decoder on a word of spec/opcode_table.json, which shows the request word of W = 8 (20 bits, log 7).
-/
def decodeTableWord (nbits w : Nat) : Option Instr :=
  match decode Config.standard (w % 2 ^ nbits) with
  | .ok i => some i
  | .error _ => none

end Sys2Proof
end

