-- ==== Sys2Proof/Machine/State.lean ====
section
/-! DEFINITION. The state of the machine: the instance's parameters, the accepted requests, the responses
delivered, and what the hosts do next. -/

namespace Sys2Proof.Machine

/-- RSP.STATUS (R203). -/
inductive Status where
  /-- 0: the opcode was defined and executed. -/
  | ok
  /-- 1: the opcode is reserved or absent. -/
  | illegal
  deriving DecidableEq, Repr

/-- What the response ports deliver, all together (R26, R45). -/
structure Response where
  /-- `RSP.STATUS`. -/
  status : Status
  /-- `RSP.RESULT`, W bits in a container (log 3). -/
  result : Word
  /-- `RSP.STR_LEN`. -/
  strLen : BitVec 7
  /-- `RSP.STR[0]`, `RSP.STR[1]`, …: W bytes. -/
  str : List Byte
  deriving DecidableEq, Repr

/-- A response field a host can read (R214). -/
inductive RspField where
  | status
  | result
  | strLen
  | str
  deriving DecidableEq, Repr

/-- What a host gets when it reads a field. -/
inductive RspValue where
  | status (v : Status)
  | result (v : Word)
  | strLen (v : BitVec 7)
  | str (v : List Byte)
  deriving DecidableEq, Repr

/-- A request and the host that presented it (R211). Hosts are numbered by the model (log 14). -/
structure HostRequest where
  /-- The host that gets the response. -/
  host : Nat
  /-- What it presented. -/
  req : Request
  deriving DecidableEq, Repr

/-- What happens next at the block's boundary. The host's interactions are those of R214, and power loss is
R213's. `serve` is no interaction: it marks a moment at which the block answers its oldest accepted request
(log 4). -/
inductive Event where
  /-- A host presents a request and the block accepts it. -/
  | request (h : Nat) (r : Request)
  /-- The block answers the oldest accepted request. -/
  | serve
  /-- A host reads a field of the last response it received. -/
  | read (h : Nat) (f : RspField)
  /-- Reset (R240, R241). -/
  | reset
  /-- Power is removed and restored (R213). -/
  | powerLoss
  deriving DecidableEq, Repr

/-- The machine's state. The block itself holds nothing (R20, R21, R29): the fields are the instance's
parameters, what is on its ports, what the hosts hold, and the model's own schedule and draw counter. -/
structure State where
  /-- The parameters, fixed at build time (R24). -/
  cfg : Config
  /-- The MODEL's own (log 4): what happens next, earliest first. When it is empty the hosts are silent. -/
  events : List Event
  /-- Requests accepted and not yet answered, oldest first (R27, R241). -/
  accepted : List HostRequest
  /-- The last response the response ports delivered (R26, R28; log 8). `none`: none since reset. -/
  rsp : Option Response
  /-- What each host holds: the last response it received since reset (R28, R211; log 15), hosts in rising
  order. A host with no entry has received none. -/
  held : List (Nat × Response)
  /-- The MODEL's own (log 2): how many free values ADD_DELTA has drawn. -/
  draws : Nat
  deriving DecidableEq, Repr

/-- Why the machine stops with a fault. -/
inductive Fault where
  /-- Raised by a host's read of a response field before the first response it receives after reset (R28, U8 of
  spec/93_implementation_defined.md; log 12, log 15). Safe: a real block might present some value, and the model
  stops. -/
  | noResponse
  deriving DecidableEq, Repr

/-- Why an instruction has no meaning. -/
inductive Refusal where
  /-- Raised by an arm of `exec` that has no meaning yet. No arm raises it: every row has its meaning. Safe. -/
  | notModelled (mnemonic : String)
  deriving DecidableEq, Repr

/-- `W` of the instance. -/
abbrev State.W (s : State) : Nat := s.cfg.W

/-- The state with a response delivered. -/
def State.withResponse (s : State) (r : Response) : State := { s with rsp := some r }

/-- The state with a number of draws. -/
def State.withDraws (s : State) (n : Nat) : State := { s with draws := n }

/-- The state with another list of accepted requests. -/
def State.withAccepted (s : State) (q : List HostRequest) : State := { s with accepted := q }

/-- The state with other responses held by the hosts. -/
def State.withHeld (s : State) (l : List (Nat × Response)) : State := { s with held := l }

/-- The state with another list of events. -/
def State.withEvents (s : State) (es : List Event) : State := { s with events := es }

/-- An instance right after reset (R30, R240): nothing accepted, no response, none held by a host. The hosts are
silent, and the draw counter is 0 (log 2 and log 4, the model's own fields). -/
def State.resetOf (c : Config) : State where
  cfg := c
  events := []
  accepted := []
  rsp := none
  held := []
  draws := 0

/-- The instance of `Config.standard` right after reset (log 1). -/
def State.reset : State := State.resetOf Config.standard

end Sys2Proof.Machine
end

