-- ==== Sys2Proof/Machine/Operands.lean ====
section
/-! DEFINITION. Reading operands from the ports, and the bit-level helpers of spec/00_scope.md section 5. -/

namespace Sys2Proof.Machine

/-- What the W wires of an operand port carry of a container (R14, R25; log 3). -/
def portValue (c : Config) (x : Word) : BitVec c.W := x.setWidth c.W

/-- A W-bit value in a container. -/
def toWord {n : Nat} (v : BitVec n) : Word := v.setWidth 64

/-- `sext_W(v)` (R17): `v` when bit W−1 is 0, and `v − 2^W` otherwise. -/
def sext {n : Nat} (v : BitVec n) : Int :=
  if v.getLsbD (n - 1) then (v.toNat : Int) - 2 ^ n else v.toNat

/-- `MAXG = 2^(W−1)` (R19), the Gray code of the largest binary value. -/
def maxg (n : Nat) : BitVec n := BitVec.ofNat n (2 ^ (n - 1))

/-- The word whose bit `i` is `f i` (the bit numbering of R15). -/
def ofBits : (n : Nat) → (Nat → Bool) → BitVec n
  | 0, _ => 0#0
  | n + 1, f => BitVec.cons (f n) (ofBits n f)

/-- The highest set bit among bits `k−1 .. 0`, counted from 1, and 0 when they are all 0. -/
def hsbBelow {n : Nat} (v : BitVec n) : Nat → Nat
  | 0 => 0
  | k + 1 => if v.getLsbD k then k + 1 else hsbBelow v k

/-- `hsb(v)` (R17): the 1-based index of the highest set bit. The spec defines it for `v ≠ 0`. Here it is 0
at 0, a value no meaning reads. -/
def hsb {n : Nat} (v : BitVec n) : Nat := hsbBelow v n

/-- The rightmost set bit, `v AND (−v)` (R120). It is 0 when `v` is 0. -/
def rightmostSetBit {n : Nat} (v : BitVec n) : BitVec n := v &&& -v

end Sys2Proof.Machine
end

