-- ==== Sys2Proof/Machine/Flags.lean ====
section
/-! DEFINITION. The one-bit values: the STATUS code, and the stepper's parity, direction and condition, which
exist only inside one request (R23). -/

namespace Sys2Proof.Machine

/-- The code on the RSP.STATUS port (R26, R203). -/
def Status.bit : Status → BitVec 1
  | .ok => 0#1
  | .illegal => 1#1

/-- How many of bits `k−1 .. 0` are 1. -/
def popcountBelow {n : Nat} (v : BitVec n) : Nat → Nat
  | 0 => 0
  | k + 1 => popcountBelow v k + (v.getLsbD k).toNat

/-- `popcount(v)` (R17). -/
def popcount {n : Nat} (v : BitVec n) : Nat := popcountBelow v n

/-- `parity(v) = popcount(v) mod 2` (R17, R125), as a Bool. -/
def parity {n : Nat} (v : BitVec n) : Bool := popcount v % 2 == 1

/-- The stepper's direction (R121). -/
inductive Direction where
  | increment
  | decrement
  deriving DecidableEq, Repr

/-- The direction bit `d`: 0 for increment, 1 for decrement (R121). -/
def Direction.bit : Direction → Bool
  | .increment => false
  | .decrement => true

/-- `c = parity(g) XOR d` (R120). -/
def stepCondition {n : Nat} (g : BitVec n) (d : Direction) : Bool := parity g ^^ d.bit

end Sys2Proof.Machine
end

