-- ==== Sys2Proof/Machine/Ops.lean ====
section
/-! DEFINITION. The shared operations: the three completions of a request, and what the hosts do to the ports.
-/

namespace Sys2Proof.Machine

/-- The bytes of STR for given characters: W bytes, 0x00 at every index past them (R26, R154). -/
def padStr (c : Config) (chars : List Byte) : List Byte :=
  (List.range c.W).map fun i => chars.getD i 0x00#8

/-- The response of a numeric opcode (R100). -/
def numResponse (c : Config) (v : BitVec c.W) : Response where
  status := .ok
  result := toWord v
  strLen := 0
  str := padStr c []

/-- The response of RENDER for given characters (R151, R155). -/
def strResponse (c : Config) (chars : List Byte) : Response where
  status := .ok
  result := 0
  strLen := BitVec.ofNat 7 chars.length
  str := padStr c chars

/-- The ILLEGAL response (R202). -/
def illegalResponse (c : Config) : Response where
  status := .illegal
  result := 0
  strLen := 0
  str := padStr c []

/-- `respond_num(v)`, the completion of every numeric opcode (R100). -/
def respondNum (s : State) (v : BitVec s.W) : Host.Outcome State Fault Refusal :=
  .next (s.withResponse (numResponse s.cfg v))

/-- RENDER's completion (R151). -/
def respondStr (s : State) (chars : List Byte) : Host.Outcome State Fault Refusal :=
  .next (s.withResponse (strResponse s.cfg chars))

/-- `raise Illegal()` (R18, R202): an ordinary response. Nothing is saved and no mode changes (R206). -/
def raiseIllegal (s : State) : Host.Outcome State Fault Refusal :=
  .next (s.withResponse (illegalResponse s.cfg))

/-- `respond_num(any W-bit value)` (R18, R171): the RESULT is the next free draw, and the draw is counted
(log 2). -/
def respondDraw (s : State) (a b : BitVec s.W) : Host.Outcome State Fault Refusal :=
  .next ((s.withDraws (s.draws + 1)).withResponse
    (numResponse s.cfg (portValue s.cfg (Config.freeWord s.draws (toWord a) (toWord b)))))

/-- The packed response of R62: STATUS at [0], RESULT at [W:1], STR_LEN at [W+7:W+1], STR[i] at
[W+8+8i+7 : W+8+8i]. -/
def packResponse (c : Config) (r : Response) : Nat :=
  r.status.bit.toNat ||| (r.result.toNat <<< 1) ||| (r.strLen.toNat <<< (c.W + 1)) |||
    (packBytes r.str <<< (c.W + 8))
where
  /-- Bytes as one number, the first byte lowest. -/
  packBytes : List Byte → Nat
    | [] => 0
    | x :: xs => x.toNat ||| (packBytes xs <<< 8)

/-- What W wires carry of a request a host presents (R25; log 3). -/
def onPorts (c : Config) (r : Request) : Request :=
  ⟨r.op, toWord (portValue c r.a), toWord (portValue c r.b)⟩

/-- A host presents a request. The block accepts every one, behind those it has accepted before (R27, R214).
-/
def acceptRequest (s : State) (h : Nat) (r : Request) : Host.Outcome State Fault Refusal :=
  .next (s.withAccepted (s.accepted ++ [⟨h, onPorts s.cfg r⟩]))

/-- What the hosts hold after host `h` receives `r`: its last response is `r`, and the others hold what they
held. The hosts stay in rising order. -/
def hold (h : Nat) (r : Response) : List (Nat × Response) → List (Nat × Response)
  | [] => [(h, r)]
  | (k, x) :: l => if h < k then (h, r) :: (k, x) :: l else if h = k then (h, r) :: l else (k, x) :: hold h r l

/-- The last response a host received since reset (R28). -/
def State.heldBy (s : State) (h : Nat) : Option Response := s.held.lookup h

/-- The response of a served request goes to the host that presented it, and to no other (R27, R211). -/
def deliverTo (h : Nat) (o : Host.Outcome State Fault Refusal) : Host.Outcome State Fault Refusal :=
  match o with
  | .next t =>
    match t.rsp with
    | some r => .next (t.withHeld (hold h r t.held))
    | none => .next t
  | .fault e => .fault e
  | .refused e => .refused e

/-- A field of a response (R26). -/
def Response.field (r : Response) : RspField → RspValue
  | .status => .status r.status
  | .result => .result r.result
  | .strLen => .strLen r.strLen
  | .str => .str r.str

/-- What a host gets from a read: a field of the last response it received itself, whatever other hosts of the
instance received (R28, R211; log 15). Before its first response after reset there is no value (R28). -/
def readField (s : State) (h : Nat) (f : RspField) : Except Fault RspValue :=
  match s.heldBy h with
  | none => .error .noResponse
  | some r => .ok (r.field f)

/-- A host reads a response field. Reading has no side effect (R45), and a premature read faults (R28). -/
def hostRead (s : State) (h : Nat) (f : RspField) : Host.Outcome State Fault Refusal :=
  match readField s h f with
  | .error e => .fault e
  | .ok _ => .next s

/-- Reset (R240, R241, R242): the accepted requests are dropped and no host has a response value. The parameters
stay. The model's own schedule and draw counter go on (log 2 and log 4). -/
def applyReset (s : State) : Host.Outcome State Fault Refusal :=
  .next { (s.withAccepted []).withHeld [] with rsp := none }

/-- Power is removed and restored (R213): a request in flight is lost the same way as at reset (log 5). -/
def applyPowerLoss (s : State) : Host.Outcome State Fault Refusal := applyReset s

/-- The next event and the state after it is taken. When the hosts are silent, the block's own turn comes
(R252; log 4). -/
def takeEvent (s : State) : Event × State :=
  match s.events with
  | [] => (.serve, s)
  | e :: es => (e, s.withEvents es)

/-- The oldest accepted request, decoded (R65, R205): its host, its instruction, and the state after it is taken;
`none` when nothing is accepted. -/
def fetch (s : State) : Option (Nat × Instr × State) :=
  match s.accepted with
  | [] => none
  | q :: qs => some (q.host, decodeRequest s.cfg q.req, s.withAccepted qs)

end Sys2Proof.Machine
end

