-- ==== Sys2Proof/Machine/Transform.lean ====
section
/-! DEFINITION. The Transform unit: TO_GREY and FROM_GREY (spec/40_transform.md). -/

namespace Sys2Proof.Machine

/-- `to_grey(v) = v XOR (v >> 1)` (R101). -/
def toGrey {n : Nat} (v : BitVec n) : BitVec n := v ^^^ (v >>> 1)

/-- `g[i] XOR g[i+1] XOR … XOR g[i+k−1]`. -/
def xorRun {n : Nat} (g : BitVec n) (i : Nat) : Nat → Bool
  | 0 => false
  | k + 1 => xorRun g i k ^^ g.getLsbD (i + k)

/-- `from_grey(g)`, the normative prefix XOR of R103: bit i is the XOR of g[j] for j = i..W−1. -/
def fromGrey {n : Nat} (g : BitVec n) : BitVec n := ofBits n fun i => xorRun g i (n - i)

/-- The shift amounts of R104 from `s` down: s, s/2, …, 1. The first argument bounds their number. -/
def foldShifts : Nat → Nat → List Nat
  | 0, _ => []
  | fuel + 1, s => if s = 0 then [] else s :: foldShifts fuel (s / 2)

/-- `from_grey_fold(g)` (R104), which starts at W/2, so that no shift by W or more occurs. -/
def fromGreyFold {n : Nat} (g : BitVec n) : BitVec n :=
  (foldShifts n (n / 2)).foldl (fun g s => g ^^^ (g >>> s)) g

/-- TO_GREY, opcode 0x0 (R102). -/
def execToGrey (a : Word) (s : State) : Host.Outcome State Fault Refusal :=
  respondNum s (toGrey (portValue s.cfg a))

/-- FROM_GREY, opcode 0x1 (R106). -/
def execFromGrey (a : Word) (s : State) : Host.Outcome State Fault Refusal :=
  respondNum s (fromGrey (portValue s.cfg a))

end Sys2Proof.Machine
end

