-- ==== Sys2Proof/Machine/AddDelta.lean ====
section
/-! DEFINITION. Add-delta: ADD_DELTA (spec/43_add_delta.md). -/

namespace Sys2Proof.Machine

/-- The exact integer sum `from_grey(A) + sext_W(B)` (R170). -/
def deltaSum {n : Nat} (a b : BitVec n) : Int := ((fromGrey a).toNat : Int) + sext b

/-- The sum lies in 0..2^W−1 (R170). -/
def deltaInRange {n : Nat} (a b : BitVec n) : Bool := decide (0 ≤ deltaSum a b ∧ deltaSum a b ≤ 2 ^ n - 1)

/-- `to_grey(s)` of the sum, read only in range (R170). -/
def deltaResult {n : Nat} (a b : BitVec n) : BitVec n := toGrey (BitVec.ofInt n (deltaSum a b))

/-- ADD_DELTA, opcode 0x7 (R170); out of range the RESULT is a draw (R171); reserved without HAS_ADD (R66). -/
def execAddDelta (a b : Word) (s : State) : Host.Outcome State Fault Refusal :=
  if s.cfg.hasAdd then
    if deltaInRange (portValue s.cfg a) (portValue s.cfg b) then
      respondNum s (deltaResult (portValue s.cfg a) (portValue s.cfg b))
    else respondDraw s (portValue s.cfg a) (portValue s.cfg b)
  else raiseIllegal s

end Sys2Proof.Machine
end

