-- ==== Sys2Proof/Machine/Render.lean ====
section
/-! DEFINITION. The Render unit: RENDER (spec/42_render.md). -/

namespace Sys2Proof.Machine

/-- `DIGIT(b)` (R150, R153): the ASCII codes 0x30 and 0x31 (log 9). -/
def digit (b : Bool) : Byte := if b then 0x31#8 else 0x30#8

/-- `render(v)` for `v ≠ 0` (R150): s[i] is the digit of bit n−1−i, with n = hsb(v). -/
def render {n : Nat} (v : BitVec n) : List Byte :=
  (List.range (hsb v)).map fun i => digit (v.getLsbD (hsb v - 1 - i))

/-- The characters RENDER produces (R151); the operand 0 is rendered as ZERO_RENDER says (R152). -/
def renderChars (c : Config) (v : BitVec c.W) : List Byte :=
  if v = 0 then
    match c.zeroRender with
    | .empty => []
    | .digit => [digit false]
  else render v

/-- RENDER, opcode 0x6 (R151). -/
def execRender (a : Word) (s : State) : Host.Outcome State Fault Refusal :=
  respondStr s (renderChars s.cfg (portValue s.cfg a))

end Sys2Proof.Machine
end

