-- ==== Sys2Proof/Machine/Reserved.lean ====
section
/-! DEFINITION. The reserved row of the opcode map (R66, R202). -/

namespace Sys2Proof.Machine

/-- A reserved or absent opcode: the ILLEGAL response, which reads neither A nor B (R202). -/
def execReserved (s : State) : Host.Outcome State Fault Refusal := raiseIllegal s

end Sys2Proof.Machine
end

