-- ==== Sys2Proof/Machine/Stepper.lean ====
section
/-! DEFINITION. The Stepper unit: INC, DEC, INC_SAT and DEC_SAT (spec/41_stepper.md). -/

namespace Sys2Proof.Machine

/-- `step(g, d)` (R120, R121, R122). The shift is a W-bit shift: the bit shifted out of bit W−1 is dropped. -/
def greyStep {n : Nat} (g : BitVec n) (d : Direction) : BitVec n :=
  if stepCondition g d then g ^^^ (rightmostSetBit g <<< 1) else g ^^^ BitVec.ofNat n 1

/-- The wrapping increment (R126). -/
def incWrap {n : Nat} (g : BitVec n) : BitVec n := if g = maxg n then 0 else greyStep g .increment

/-- The wrapping decrement (R127). -/
def decWrap {n : Nat} (g : BitVec n) : BitVec n := if g = 0 then maxg n else greyStep g .decrement

/-- The saturating increment (R128). -/
def incSaturate {n : Nat} (g : BitVec n) : BitVec n := if g = maxg n then g else greyStep g .increment

/-- The saturating decrement (R129). -/
def decSaturate {n : Nat} (g : BitVec n) : BitVec n := if g = 0 then 0 else greyStep g .decrement

/-- INC, opcode 0x2 (R126). -/
def execInc (a : Word) (s : State) : Host.Outcome State Fault Refusal :=
  respondNum s (incWrap (portValue s.cfg a))

/-- DEC, opcode 0x3 (R127). -/
def execDec (a : Word) (s : State) : Host.Outcome State Fault Refusal :=
  respondNum s (decWrap (portValue s.cfg a))

/-- INC_SAT, opcode 0x4 (R128); reserved without HAS_SAT (R66). -/
def execIncSat (a : Word) (s : State) : Host.Outcome State Fault Refusal :=
  if s.cfg.hasSat then respondNum s (incSaturate (portValue s.cfg a)) else raiseIllegal s

/-- DEC_SAT, opcode 0x5 (R129); reserved without HAS_SAT (R66). -/
def execDecSat (a : Word) (s : State) : Host.Outcome State Fault Refusal :=
  if s.cfg.hasSat then respondNum s (decSaturate (portValue s.cfg a)) else raiseIllegal s

end Sys2Proof.Machine
end

