-- ==== Sys2Proof/Machine/Dispatch.lean ====
section
/-! DEFINITION. One arm for each constructor of Instr. -/

namespace Sys2Proof.Machine

/-- The meaning of an instruction (R64). -/
def exec (i : Instr) (s : State) : Host.Outcome State Fault Refusal :=
  match i with
  | .toGrey a _ => Sys2Proof.Machine.execToGrey a s
  | .fromGrey a _ => Sys2Proof.Machine.execFromGrey a s
  | .inc a _ => Sys2Proof.Machine.execInc a s
  | .dec a _ => Sys2Proof.Machine.execDec a s
  | .incSat a _ => Sys2Proof.Machine.execIncSat a s
  | .decSat a _ => Sys2Proof.Machine.execDecSat a s
  | .render a _ => Sys2Proof.Machine.execRender a s
  | .addDelta a b => Sys2Proof.Machine.execAddDelta a b s
  | .reserved _ _ _ => Sys2Proof.Machine.execReserved s

end Sys2Proof.Machine
end

