-- ==== Sys2Proof/Machine/Step.lean ====
section
/-! DEFINITION. One step of the machine, and placing a table word where the next step takes it. -/

namespace Sys2Proof.Machine

/-- The block answers its oldest accepted request, in one atomic step, and the response goes to the host that
presented it (R27, R211, R252). With nothing accepted it stays ready: no response comes without a request (R27,
R240). -/
def serve (s : State) : Host.Outcome State Fault Refusal :=
  match fetch s with
  | none => .next s
  | some (h, i, s') => deliverTo h (exec i s')

/-- One step: the next event happens (R214, R213), or the block answers (log 4). -/
def step (s : State) : Host.Outcome State Fault Refusal :=
  match takeEvent s with
  | (.request h r, s') => acceptRequest s' h r
  | (.serve, s') => serve s'
  | (.read h f, s') => hostRead s' h f
  | (.reset, s') => applyReset s'
  | (.powerLoss, s') => applyPowerLoss s'

/-- The state with a packed request of host 0 as its oldest accepted one, at a moment when the block answers.
Nothing else changes (log 6). DESIGN CHOICE (log 7): where the placed number has more than the 2W+4 bits of a request
of the instance, the bits at 2W+4 and above are dropped and the request of the rest runs, while `decode` refuses the
number: R61 says nothing of such a number, and the ports carry OP, A and B only (R25). -/
def State.withFetchWord (s : State) (nbits w : Nat) : State :=
  (s.withEvents (.serve :: s.events)).withAccepted (⟨0, unpackRequest s.cfg (w % 2 ^ nbits)⟩ :: s.accepted)

end Sys2Proof.Machine
end

