-- ==== Sys2Proof/Machine/Assembler.lean ====
section
/-! DEFINITION. The assembler syntax of R68, from the characters of a line to a request. It issues requests;
no step of the machine reads it (log 10). -/

namespace Sys2Proof.Machine

/-- An unsigned literal `<a>` lies in 0..2^W−1 (R68). -/
def unsignedInRange (c : Config) (a : Nat) : Bool := decide (a < 2 ^ c.W)

/-- A signed literal `<d>` lies in −2^(W−1)..2^(W−1)−1 (R68). -/
def signedInRange (c : Config) (d : Int) : Bool :=
  decide (-(2 ^ (c.W - 1)) ≤ d ∧ d ≤ 2 ^ (c.W - 1) - 1)

/-- `B = d mod 2^W` (R68). -/
def encodeDelta (c : Config) (d : Int) : Word := BitVec.ofNat 64 (d % 2 ^ c.W).toNat

/-- The request of an opcode with one operand: B is 0 (R68). -/
def assembleUnary (c : Config) (op : BitVec 4) (a : Nat) : Except AsmError Request :=
  if unsignedInRange c a then .ok ⟨op, BitVec.ofNat 64 a, 0⟩ else .error .outOfRange

/-- The request a line stands for (R68). Which opcodes are present is the decoder's affair, not the
assembler's. -/
def assemble (c : Config) : AsmLine → Except AsmError Request
  | .toGrey a => assembleUnary c 0x0#4 a
  | .fromGrey a => assembleUnary c 0x1#4 a
  | .inc a => assembleUnary c 0x2#4 a
  | .dec a => assembleUnary c 0x3#4 a
  | .incSat a => assembleUnary c 0x4#4 a
  | .decSat a => assembleUnary c 0x5#4 a
  | .render a => assembleUnary c 0x6#4 a
  | .addDelta a d =>
    if unsignedInRange c a && signedInRange c d then .ok ⟨0x7#4, BitVec.ofNat 64 a, encodeDelta c d⟩
    else .error .outOfRange
  | .raw n a b =>
    if decide (n < 16) && unsignedInRange c a && unsignedInRange c b then
      .ok ⟨BitVec.ofNat 4 n, BitVec.ofNat 64 a, BitVec.ofNat 64 b⟩
    else .error .outOfRange

/-- The digit a character stands for, below `base`. -/
def digitValue (base : Nat) (ch : Char) : Option Nat :=
  let k := ch.toNat
  let v :=
    if 48 ≤ k ∧ k ≤ 57 then k - 48
    else if 97 ≤ k ∧ k ≤ 102 then k - 87
    else if 65 ≤ k ∧ k ≤ 70 then k - 55
    else base
  if v < base then some v else none

/-- Digits in a base, most significant first, continuing a number. -/
def readDigits (base : Nat) : Nat → List Char → Option Nat
  | acc, [] => some acc
  | acc, ch :: chs =>
    match digitValue base ch with
    | none => none
    | some v => readDigits base (acc * base + v) chs

/-- A number of at least one digit. -/
def readNumber (base : Nat) : List Char → Option Nat
  | [] => none
  | ch :: chs => readDigits base 0 (ch :: chs)

/-- A literal: decimal, `0x` hexadecimal or `0b` binary (R68). -/
def readUnsigned : List Char → Option Nat
  | '0' :: 'x' :: chs => readNumber 16 chs
  | '0' :: 'b' :: chs => readNumber 2 chs
  | chs => readNumber 10 chs

/-- A signed literal: a literal, or `-` and a literal (log 10). -/
def readSigned : List Char → Option Int
  | '-' :: chs => (readUnsigned chs).map fun v => -(v : Int)
  | chs => (readUnsigned chs).map fun v => (v : Int)

/-- A token that has ended, if it has any character. -/
def endToken (cur : List Char) : List (List Char) := if cur.isEmpty then [] else [cur]

/-- The tokens of a line after a token's first characters: blanks separate, a comma is a token of its own,
and `;` starts a comment (R68). -/
def tokensFrom : List Char → List Char → List (List Char)
  | cur, [] => endToken cur
  | cur, ch :: chs =>
    if ch == ';' then endToken cur
    else if ch == ' ' || ch == '\t' then endToken cur ++ tokensFrom [] chs
    else if ch == ',' then endToken cur ++ [[',']] ++ tokensFrom [] chs
    else tokensFrom (cur ++ [ch]) chs

/-- The line of a mnemonic with one operand (R68). -/
def unaryLine (m : List Char) (a : Nat) : Option AsmLine :=
  if m = ['T', 'O', '_', 'G', 'R', 'E', 'Y'] then some (.toGrey a)
  else if m = ['F', 'R', 'O', 'M', '_', 'G', 'R', 'E', 'Y'] then some (.fromGrey a)
  else if m = ['I', 'N', 'C'] then some (.inc a)
  else if m = ['D', 'E', 'C'] then some (.dec a)
  else if m = ['I', 'N', 'C', '_', 'S', 'A', 'T'] then some (.incSat a)
  else if m = ['D', 'E', 'C', '_', 'S', 'A', 'T'] then some (.decSat a)
  else if m = ['R', 'E', 'N', 'D', 'E', 'R'] then some (.render a)
  else none

/-- The line that tokens spell (R68). -/
def lineOfTokens : List (List Char) → Option AsmLine
  | [m, a] => (readUnsigned a).bind (unaryLine m)
  | [m, a, [','], d] =>
    if m = ['A', 'D', 'D', '_', 'D', 'E', 'L', 'T', 'A'] then
      (readUnsigned a).bind fun a => (readSigned d).map fun d => .addDelta a d
    else none
  | [m, n, [','], a, [','], b] =>
    if m = ['.', 'o', 'p'] then
      (readUnsigned n).bind fun n => (readUnsigned a).bind fun a =>
        (readUnsigned b).map fun b => .raw n a b
    else none
  | _ => none

/-- One line of assembler text (R68): a request, or none where the line holds a comment only or nothing. -/
def assembleText (c : Config) (line : List Char) : Except AsmError (Option Request) :=
  match tokensFrom [] line with
  | [] => .ok none
  | ts =>
    match lineOfTokens ts with
    | none => .error .malformed
    | some l => (assemble c l).map some

end Sys2Proof.Machine
end

