-- ==== Sys2Proof/Safety.lean ====
section
/-! DEFINITION. The terms claims are stated in: well-formed responses and states, the reference meaning of a
request, and orderly schedules. -/

namespace Sys2Proof.Machine

/-- What every response of an instance satisfies (R26, R42, R153, R154): RESULT is a W-bit value, STR_LEN is
at most W, STR has W bytes, its first STR_LEN bytes are '0' or '1' and the rest 0x00, and a response carries a
number or a string, never both (R100, R155); ILLEGAL carries neither (R202). -/
abbrev Response.WF (c : Config) (r : Response) : Prop :=
  r.result.toNat < 2 ^ c.W ∧
  r.strLen.toNat ≤ c.W ∧
  r.str.length = c.W ∧
  (∀ i < c.W, r.strLen.toNat ≤ i → r.str[i]? = some 0x00#8) ∧
  (∀ i < r.strLen.toNat, r.str[i]? = some 0x30#8 ∨ r.str[i]? = some 0x31#8) ∧
  (r.strLen ≠ 0 → r.result = 0) ∧
  (r.status = .illegal → r.result = 0 ∧ r.strLen = 0)

/-- The invariant of the machine: every accepted request is one that the W-bit ports can carry (R25); the last
response and every response a host holds is well formed for the instance (R26); the hosts that hold one are listed
in rising order, and there is none before the first response (R28). -/
abbrev State.Inv (s : State) : Prop :=
  (∀ q ∈ s.accepted, q.req.wf s.cfg = true) ∧ (∀ r ∈ s.rsp, r.WF s.cfg) ∧ (∀ p ∈ s.held, p.2.WF s.cfg) ∧
  (s.held.map Prod.fst).Pairwise (· < ·) ∧ (s.rsp = none → s.held = [])

/-- The shape of a numeric response, field by field: `respond_num(v)` for some W-bit v (R100). -/
abbrev Response.Numeric (c : Config) (r : Response) : Prop :=
  r.status = .ok ∧ r.result.toNat < 2 ^ c.W ∧ r.strLen = 0 ∧ r.str = List.replicate c.W 0x00#8

/-- The ILLEGAL response, field by field (R202). -/
def illegalAnswer (c : Config) : Response := ⟨.illegal, 0, 0, List.replicate c.W 0x00#8⟩

/-- The number of characters RENDER gives for a word: `floor(log2(v)) + 1` for `v ≠ 0` (R150), and what
ZERO_RENDER says for 0 (R152). -/
def renderLength (c : Config) (v : BitVec c.W) : Nat :=
  if v = 0 then (if c.zeroRender = .digit then 1 else 0) else Nat.log2 v.toNat + 1

/-- `r` is RENDER's response to `v`, said position by position (R150 to R155). -/
def RenderAnswer (c : Config) (v : BitVec c.W) (r : Response) : Prop :=
  r.status = .ok ∧ r.result = 0 ∧ r.strLen.toNat = renderLength c v ∧ r.str.length = c.W ∧
  ∀ i < c.W, r.str[i]? = some
    (if i < renderLength c v then (if v.getLsbD (renderLength c v - 1 - i) then 0x31#8 else 0x30#8)
     else 0x00#8)

/-- `r` is a response the spec allows for the request `q`, in the reference meaning: the stepper as
`to_grey(from_grey(A) ± 1)` (R130), each transform as the inverse of the other (R107), RENDER position by
position, and any W-bit RESULT where ADD_DELTA is out of range (R171). -/
def Answers (c : Config) (q : Request) (r : Response) : Prop :=
  let a := portValue c q.a
  let b := portValue c q.b
  match q.op.toNat with
  | 0x0 => ∃ v, fromGrey v = a ∧ r = numResponse c v
  | 0x1 => ∃ v, toGrey v = a ∧ r = numResponse c v
  | 0x2 => r = numResponse c (toGrey (fromGrey a + 1))
  | 0x3 => r = numResponse c (toGrey (fromGrey a - 1))
  | 0x4 =>
    if c.hasSat then
      r = numResponse c (if fromGrey a = BitVec.allOnes c.W then a else toGrey (fromGrey a + 1))
    else r = illegalAnswer c
  | 0x5 =>
    if c.hasSat then r = numResponse c (if fromGrey a = 0 then a else toGrey (fromGrey a - 1))
    else r = illegalAnswer c
  | 0x6 => RenderAnswer c a r
  | 0x7 =>
    if c.hasAdd then
      ∃ v, r = numResponse c v ∧
        (0 ≤ ((fromGrey a).toNat : Int) + b.toInt → ((fromGrey a).toNat : Int) + b.toInt < 2 ^ c.W →
          ((fromGrey v).toNat : Int) = (fromGrey a).toNat + b.toInt)
    else r = illegalAnswer c
  | _ => r = illegalAnswer c

/-- The number that characters '0' and '1' spell, most significant first (R158). -/
def numeralValue (chars : List Byte) : Nat :=
  chars.foldl (fun acc ch => 2 * acc + (if ch = 0x31#8 then 1 else 0)) 0

/-- In how many bits two words differ: the Hamming distance of the glossary in spec/00_scope.md. -/
def hamming {n : Nat} (x y : BitVec n) : Nat := popcount (x ^^^ y)

/-- The next move is the read of a host that has received no response since reset (R28). -/
def State.prematureRead (s : State) : Bool :=
  match s.events with
  | .read h _ :: _ => (s.heldBy h).isNone
  | _ => false

/-- The block's turn comes next: the hosts are silent, or it is a moment at which it answers. -/
def State.blockTurn (s : State) : Bool :=
  match s.events with
  | [] => true
  | .serve :: _ => true
  | _ => false

/-- The host whose request the next step serves: it is the block's turn, and a request is accepted. -/
def State.servedHost (s : State) : Option Nat := if s.blockTurn then s.accepted.head?.map (·.host) else none

/-- The responses that `k` steps deliver, in order, each with its host: at each step that serves a request, what
the request's host then holds. -/
def deliveries : Nat → State → List (Nat × Response)
  | 0, _ => []
  | k + 1, s =>
    match step s with
    | .next t => (s.servedHost.toList.filterMap fun h => (t.heldBy h).map fun r => (h, r)) ++ deliveries k t
    | .fault _ => []
    | .refused _ => []

/-- The request an event presents. -/
def Event.presents : Event → Option HostRequest
  | .request h q => some ⟨h, q⟩
  | .serve => none
  | .read _ _ => none
  | .reset => none
  | .powerLoss => none

/-- The requests that wait for an answer, those the hosts still present after the accepted ones. -/
def State.awaited (s : State) : List HostRequest := s.accepted ++ s.events.filterMap Event.presents

/-- No reset and no power loss comes, and every host reads only after it received a response (the hosts' one duty
in R214). The first argument lists the hosts that hold a response, the second those whose requests wait. -/
def orderlyFrom : List Nat → List Nat → List Event → Bool
  | _, _, [] => true
  | given, waiting, .request h _ :: es => orderlyFrom given (waiting ++ [h]) es
  | given, [], .serve :: es => orderlyFrom given [] es
  | given, h :: waiting, .serve :: es => orderlyFrom (h :: given) waiting es
  | given, waiting, .read h _ :: es => given.contains h && orderlyFrom given waiting es
  | _, _, .reset :: _ => false
  | _, _, .powerLoss :: _ => false

/-- The hosts' schedule is orderly from this state on. -/
def State.orderly (s : State) : Bool :=
  orderlyFrom (s.held.map Prod.fst) (s.accepted.map (·.host)) s.events

end Sys2Proof.Machine
end

