-- ==== Sys2Proof/Certificates/Slice0/Obligations.lean ====
section
/-! DEFINITION. The statements for the provers. `a.setWidth s.W` is what the W wires of a port carry of a
container (log 3). A state written `{ s with … }` says the frame: every field not named is unchanged. -/

open Sys2Proof Sys2Proof.Machine

/-! ### Encoding -/

/-- Request words of the programs P1 to P4 of spec/95_test_vectors.md decode to the requests listed there. -/
def Obligations.ProgramListingWordsDecode : Prop :=
  decode Config.standard 0x00061 = .ok (.fromGrey 0x06 0) ∧
  decode Config.standard 0x000A0 = .ok (.toGrey 10 0) ∧
  decode Config.standard 0xFF0F2 = .ok (.inc 0x0F 0xFF) ∧
  decode Config.standard 0x00803 = .ok (.dec 0x80 0) ∧
  decode Config.standard 0x00804 = .ok (.incSat 0x80 0) ∧
  decode Config.standard 0x00005 = .ok (.decSat 0 0) ∧
  decode Config.standard 0x000F6 = .ok (.render 0x0F 0) ∧
  decode Config.standard 0x030F7 = .ok (.addDelta 0x0F 3) ∧
  decode Config.standard 0x00558 = .ok (.reserved 8 0x55 0)

/-- R65, R66: the row each value of REQ.OP selects, for every A and B, with the operands unchanged. -/
def Obligations.EveryOpcodeSelectsItsRow : Prop :=
  ∀ (c : Config) (a b : Word),
    decodeRequest c ⟨0x0, a, b⟩ = .toGrey a b ∧
    decodeRequest c ⟨0x1, a, b⟩ = .fromGrey a b ∧
    decodeRequest c ⟨0x2, a, b⟩ = .inc a b ∧
    decodeRequest c ⟨0x3, a, b⟩ = .dec a b ∧
    decodeRequest c ⟨0x4, a, b⟩ = (if c.hasSat then .incSat a b else .reserved 0x4 a b) ∧
    decodeRequest c ⟨0x5, a, b⟩ = (if c.hasSat then .decSat a b else .reserved 0x5 a b) ∧
    decodeRequest c ⟨0x6, a, b⟩ = .render a b ∧
    decodeRequest c ⟨0x7, a, b⟩ = (if c.hasAdd then .addDelta a b else .reserved 0x7 a b) ∧
    ∀ op : BitVec 4, 8 ≤ op.toNat → decodeRequest c ⟨op, a, b⟩ = .reserved op a b

/-- R61: the fields of a packed request stand where the table puts them, and it has 2W+4 bits. -/
def Obligations.PackedRequestHoldsItsFields : Prop :=
  ∀ (c : Config) (i : Instr), i.wf c = true →
    encode c i % 2 ^ 4 = i.opcode.toNat ∧
    encode c i / 2 ^ 4 % 2 ^ c.W = i.operandA.toNat ∧
    encode c i / 2 ^ (c.W + 4) = i.operandB.toNat ∧
    encode c i < 2 ^ (2 * c.W + 4)

/-- R62: the fields of a packed response stand where the table puts them, and it has 9W+8 bits. -/
def Obligations.PackedResponseHoldsItsFields : Prop :=
  ∀ (c : Config) (r : Response), r.WF c →
    packResponse c r % 2 = (if r.status = .illegal then 1 else 0) ∧
    packResponse c r / 2 % 2 ^ c.W = r.result.toNat ∧
    packResponse c r / 2 ^ (c.W + 1) % 2 ^ 7 = r.strLen.toNat ∧
    (∀ i < c.W, r.str[i]? = some (BitVec.ofNat 8 (packResponse c r / 2 ^ (c.W + 8 + 8 * i)))) ∧
    packResponse c r < 2 ^ (9 * c.W + 8)

/-- Decoding the word of any well-formed instruction, of any instance, gives it back: every operand at every
value, and every opcode. -/
def Obligations.DecodeOfEncodeIsIdentity : Prop :=
  ∀ (c : Config) (i : Instr), i.wf c = true → decode c (encode c i) = .ok i

/-- Every word of 2W+4 bits is the word of one well-formed instruction, the one it decodes to; a longer
number is refused. -/
def Obligations.EveryRequestWordIsDecoded : Prop :=
  ∀ (c : Config) (w : Nat),
    (w < 2 ^ (2 * c.W + 4) → ∃ i, decode c w = .ok i ∧ i.wf c = true ∧ encode c i = w) ∧
    (2 ^ (2 * c.W + 4) ≤ w → decode c w = .error (.tooLong w))

/-- R68: a line whose literals are in range gives the opcode of its mnemonic and its literals: A for the seven
mnemonics with one operand, with B = 0; A and the signed delta for ADD_DELTA; OP, A and B for `.op`. A line with
a literal out of range is refused (how, is log 10). Every request given is one of the instance. -/
def Obligations.AssembledLinesCarryTheirLiterals : Prop :=
  ∀ c : Config,
    (∀ (a : Nat) (l : AsmLine) (op : BitVec 4),
      (l, op) ∈ [(.toGrey a, 0x0), (.fromGrey a, 0x1), (.inc a, 0x2), (.dec a, 0x3), (.incSat a, 0x4),
        (.decSat a, 0x5), (.render a, 0x6)] →
      (a < 2 ^ c.W → ∃ q, assemble c l = .ok q ∧ q.op = op ∧ q.a.toNat = a ∧ q.b = 0) ∧
      (2 ^ c.W ≤ a → assemble c l = .error .outOfRange)) ∧
    (∀ (a : Nat) (d : Int), a < 2 ^ c.W → -(2 ^ (c.W - 1)) ≤ d → d < 2 ^ (c.W - 1) →
      ∃ q, assemble c (.addDelta a d) = .ok q ∧ q.op = 0x7 ∧ q.a.toNat = a ∧
        (q.b.setWidth c.W).toInt = d) ∧
    (∀ (a : Nat) (d : Int), (2 ^ c.W ≤ a ∨ d < -(2 ^ (c.W - 1)) ∨ 2 ^ (c.W - 1) ≤ d) →
      assemble c (.addDelta a d) = .error .outOfRange) ∧
    (∀ n a b : Nat, n < 16 → a < 2 ^ c.W → b < 2 ^ c.W →
      ∃ q, assemble c (.raw n a b) = .ok q ∧ q.op.toNat = n ∧ q.a.toNat = a ∧ q.b.toNat = b) ∧
    (∀ n a b : Nat, (16 ≤ n ∨ 2 ^ c.W ≤ a ∨ 2 ^ c.W ≤ b) →
      assemble c (.raw n a b) = .error .outOfRange) ∧
    (∀ l q, assemble c l = .ok q → q.wf c = true)

/-! ### Instances -/

/-- R200: an instance is built for W in 8, 16, 32 and 64 and for no other number, and it has the parameters
it was built with. -/
def Obligations.OnlyLegalWidthsAreBuilt : Prop :=
  ∀ (w : Nat) (hasSat hasAdd : Bool) (z : ZeroRender) (l : Vector Nat 16),
    (w = 8 ∨ w = 16 ∨ w = 32 ∨ w = 64 →
      ∃ c, Config.build w hasSat hasAdd z l = .ok c ∧ c.W = w ∧ c.hasSat = hasSat ∧ c.hasAdd = hasAdd ∧
        c.zeroRender = z ∧ c.latency = l) ∧
    (¬ (w = 8 ∨ w = 16 ∨ w = 32 ∨ w = 64) →
      Config.build w hasSat hasAdd z l = .error (.illegalWidth w))

/-! ### The Transform unit -/

/-- R100: `respond_num(v)`, field by field. -/
def Obligations.NumericCompletionDrivesEveryField : Prop :=
  ∀ (s : State) (v : BitVec s.W), ∃ r,
    respondNum s v = .next { s with rsp := some r } ∧ r.status = .ok ∧ r.result.toNat = v.toNat ∧
    r.strLen = 0 ∧ r.str.length = s.W ∧ ∀ i < s.W, r.str[i]? = some 0x00#8

/-- TO_GREY answers for every A and B, in every state. Bit i of RESULT is A[i] XOR A[i+1], and bit W−1 is
A[W−1]. Only the response changes. -/
def Obligations.ToGreyAnswersBitByBit : Prop :=
  ∀ (s : State) (a b : Word), ∃ r,
    exec (.toGrey a b) s = .next { s with rsp := some r } ∧ r.Numeric s.cfg ∧
    ∀ i < s.W, r.result.getLsbD i = (a.getLsbD i ^^ (decide (i + 1 < s.W) && a.getLsbD (i + 1)))

/-- FROM_GREY answers for every A and B, in every state. Bit i of RESULT is 1 when an odd number of bits W−1
down to i of A are 1 (the prefix XOR of R103). Only the response changes. -/
def Obligations.FromGreyAnswersPrefixParity : Prop :=
  ∀ (s : State) (a b : Word), ∃ r,
    exec (.fromGrey a b) s = .next { s with rsp := some r } ∧ r.Numeric s.cfg ∧
    ∀ i < s.W, r.result.getLsbD i =
      decide ((List.range s.W).countP (fun j => decide (i ≤ j) && a.getLsbD j) % 2 = 1)

/-- R107: the transform is a bijection, and FROM_GREY's function is its two-sided inverse, for every instance.
-/
def Obligations.TransformIsABijection : Prop :=
  ∀ (c : Config) (v : BitVec c.W), fromGrey (toGrey v) = v ∧ toGrey (fromGrey v) = v

/-- R108: the codes of v and v+1 differ in exactly one bit, and so do MAXG, the code of 2^W−1, and 0. -/
def Obligations.ConsecutiveCodesDifferInOneBit : Prop :=
  ∀ c : Config,
    (∀ v : BitVec c.W, v.toNat < 2 ^ c.W - 1 → hamming (toGrey v) (toGrey (v + 1)) = 1) ∧
    toGrey (BitVec.allOnes c.W) = maxg c.W ∧ toGrey (0 : BitVec c.W) = 0 ∧
    ∀ i, (maxg c.W ^^^ 0).getLsbD i = decide (i = c.W - 1)

/-- R104: the fold equals the prefix XOR, it takes log2(W) steps, and no shift is by W or more. -/
def Obligations.FoldEqualsPrefixXor : Prop :=
  ∀ c : Config,
    (∀ g : BitVec c.W, fromGreyFold g = fromGrey g) ∧
    2 ^ (foldShifts c.W (c.W / 2)).length = c.W ∧
    ∀ k ∈ foldShifts c.W (c.W / 2), 1 ≤ k ∧ k < c.W

/-! ### The Stepper unit -/

/-- R123: away from the boundary the step function agrees with the transform, in both directions. -/
def Obligations.StepAgreesWithTheTransform : Prop :=
  ∀ (c : Config) (g : BitVec c.W),
    (g ≠ maxg c.W → greyStep g .increment = toGrey (fromGrey g + 1)) ∧
    (g ≠ 0 → greyStep g .decrement = toGrey (fromGrey g - 1))

/-- R124: the step function saturates at the boundary, and everywhere else it changes exactly one bit. -/
def Obligations.StepSaturatesAndElseFlipsOneBit : Prop :=
  ∀ c : Config,
    greyStep (maxg c.W) .increment = maxg c.W ∧
    greyStep (0 : BitVec c.W) .decrement = 0 ∧
    ∀ (g : BitVec c.W) (d : Direction),
      ¬ (g = maxg c.W ∧ d = .increment) → ¬ (g = 0 ∧ d = .decrement) → hamming g (greyStep g d) = 1

/-- R126: INC answers for every A and B, in every state, with the code of from_grey(A) + 1 modulo 2^W; MAXG
gives 0, 0 gives 1, and RESULT differs from A in exactly one bit. Only the response changes. -/
def Obligations.IncAnswersWrappingSuccessor : Prop :=
  ∀ (s : State) (a b : Word), ∃ v : BitVec s.W,
    exec (.inc a b) s = .next { s with rsp := some (numResponse s.cfg v) } ∧
    v = toGrey (fromGrey (a.setWidth s.W) + 1) ∧
    (a.setWidth s.W = maxg s.W → v = 0) ∧ (a.setWidth s.W = 0 → v = 1) ∧
    hamming (a.setWidth s.W) v = 1

/-- R127: DEC answers for every A and B, in every state, with the code of from_grey(A) − 1 modulo 2^W; 0 gives
MAXG, MAXG gives MAXG + 1, and 1 gives 0. Only the response changes. -/
def Obligations.DecAnswersWrappingPredecessor : Prop :=
  ∀ (s : State) (a b : Word), ∃ v : BitVec s.W,
    exec (.dec a b) s = .next { s with rsp := some (numResponse s.cfg v) } ∧
    v = toGrey (fromGrey (a.setWidth s.W) - 1) ∧
    (a.setWidth s.W = 0 → v = maxg s.W) ∧ (a.setWidth s.W = maxg s.W → v = maxg s.W + 1) ∧
    (a.setWidth s.W = 1 → v = 0)

/-- R128: with HAS_SAT, INC_SAT leaves MAXG unchanged and gives the code of from_grey(A) + 1 for every other
A, which is `step(A, 0)` for every A. Only the response changes. That the term run without HAS_SAT, which that instance's
decoder never gives, answers ILLEGAL is the model's own (log 11): R128 says so of the request's OP. -/
def Obligations.IncSatAnswersSaturatingSuccessor : Prop :=
  ∀ (s : State) (a b : Word),
    (s.cfg.hasSat = true → ∃ v : BitVec s.W,
      exec (.incSat a b) s = .next { s with rsp := some (numResponse s.cfg v) } ∧
      v = greyStep (a.setWidth s.W) .increment ∧
      (a.setWidth s.W = maxg s.W → v = maxg s.W) ∧
      (a.setWidth s.W ≠ maxg s.W → v = toGrey (fromGrey (a.setWidth s.W) + 1))) ∧
    (s.cfg.hasSat = false →
      exec (.incSat a b) s = .next { s with rsp := some (illegalAnswer s.cfg) })

/-- R129: with HAS_SAT, DEC_SAT leaves 0 unchanged and gives the code of from_grey(A) − 1 for every other A,
which is `step(A, 1)` for every A. Only the response changes. That the term run without HAS_SAT, which that instance's
decoder never gives, answers ILLEGAL is the model's own (log 11): R129 says so of the request's OP. -/
def Obligations.DecSatAnswersSaturatingPredecessor : Prop :=
  ∀ (s : State) (a b : Word),
    (s.cfg.hasSat = true → ∃ v : BitVec s.W,
      exec (.decSat a b) s = .next { s with rsp := some (numResponse s.cfg v) } ∧
      v = greyStep (a.setWidth s.W) .decrement ∧
      (a.setWidth s.W = 0 → v = 0) ∧
      (a.setWidth s.W ≠ 0 → v = toGrey (fromGrey (a.setWidth s.W) - 1))) ∧
    (s.cfg.hasSat = false →
      exec (.decSat a b) s = .next { s with rsp := some (illegalAnswer s.cfg) })

/-- R130: the wrapping pair is modular arithmetic through the transform, each the inverse of the other; the
saturating pair is so except at the boundary, whose values are given at MAXG and at 0. -/
def Obligations.WrappingPairIsModularArithmetic : Prop :=
  ∀ (c : Config) (g : BitVec c.W),
    incWrap g = toGrey (fromGrey g + 1) ∧ decWrap g = toGrey (fromGrey g - 1) ∧
    decWrap (incWrap g) = g ∧ incWrap (decWrap g) = g ∧
    (g ≠ maxg c.W → decSaturate (incSaturate g) = g) ∧ (g ≠ 0 → incSaturate (decSaturate g) = g) ∧
    incSaturate (maxg c.W) = maxg c.W ∧ decSaturate (maxg c.W) = maxg c.W + 1 ∧
    decSaturate (0 : BitVec c.W) = 0 ∧ incSaturate (0 : BitVec c.W) = 1

/-- R131: n increments give the code of from_grey(g) + n, n decrements that of from_grey(g) − n; 2^W of either
return to g and visit every word exactly once on the way; repeated saturating increments reach MAXG after
2^W − 1 − from_grey(g) applications, not before, and stay there. -/
def Obligations.RepeatedIncWalksTheCycle : Prop :=
  ∀ (c : Config) (g : BitVec c.W),
    (∀ n, incWrap^[n] g = toGrey (fromGrey g + BitVec.ofNat c.W n)) ∧
    (∀ n, decWrap^[n] g = toGrey (fromGrey g - BitVec.ofNat c.W n)) ∧
    incWrap^[2 ^ c.W] g = g ∧ decWrap^[2 ^ c.W] g = g ∧
    (∀ w : BitVec c.W, ∃! n, n < 2 ^ c.W ∧ incWrap^[n] g = w) ∧
    (∀ w : BitVec c.W, ∃! n, n < 2 ^ c.W ∧ decWrap^[n] g = w) ∧
    (∀ n, incSaturate^[n] g = maxg c.W ↔ 2 ^ c.W - 1 - (fromGrey g).toNat ≤ n)

/-- R132: INC and DEC change exactly one bit for every A; INC_SAT and DEC_SAT change exactly one bit, except
at their saturation point, where they change none. -/
def Obligations.StepOpcodesChangeAtMostOneBit : Prop :=
  ∀ (s : State) (a b : Word), ∃ v w : BitVec s.W,
    exec (.inc a b) s = .next { s with rsp := some (numResponse s.cfg v) } ∧
    hamming (a.setWidth s.W) v = 1 ∧
    exec (.dec a b) s = .next { s with rsp := some (numResponse s.cfg w) } ∧
    hamming (a.setWidth s.W) w = 1 ∧
    (s.cfg.hasSat = true → ∃ x y : BitVec s.W,
      exec (.incSat a b) s = .next { s with rsp := some (numResponse s.cfg x) } ∧
      hamming (a.setWidth s.W) x = (if a.setWidth s.W = maxg s.W then 0 else 1) ∧
      exec (.decSat a b) s = .next { s with rsp := some (numResponse s.cfg y) } ∧
      hamming (a.setWidth s.W) y = (if a.setWidth s.W = 0 then 0 else 1))

/-! ### The Render unit -/

/-- R150 to R155: RENDER answers for every A and B, in every state. STR_LEN is floor(log2(A)) + 1 for A ≠ 0
and what ZERO_RENDER says for 0; the characters are A's bits from the highest set bit down, and every byte
past them is 0x00. Only the response changes. -/
def Obligations.RenderAnswersPositionByPosition : Prop :=
  ∀ (s : State) (a b : Word), ∃ r,
    exec (.render a b) s = .next { s with rsp := some r } ∧ RenderAnswer s.cfg (a.setWidth s.W) r

/-- R158: reading the characters back recovers A for A ≠ 0, and 0 for 0 under DIGIT; under EMPTY the string of
0 is empty. -/
def Obligations.RenderRoundTripsExceptAtZero : Prop :=
  ∀ (s : State) (a b : Word), ∃ r,
    exec (.render a b) s = .next { s with rsp := some r } ∧
    (a.setWidth s.W ≠ 0 → numeralValue (r.str.take r.strLen.toNat) = (a.setWidth s.W).toNat) ∧
    (a.setWidth s.W = 0 → s.cfg.zeroRender = .digit →
      r.str.take r.strLen.toNat ≠ [] ∧ numeralValue (r.str.take r.strLen.toNat) = 0) ∧
    (a.setWidth s.W = 0 → s.cfg.zeroRender = .empty → r.str.take r.strLen.toNat = [])

/-! ### Add-delta -/

/-- R170: with HAS_ADD, ADD_DELTA answers with a numeric response for every A and B; where the exact sum is in
range, RESULT is its code and only the response changes; B = 0 gives A. That the term run without HAS_ADD, which that
instance's decoder never gives, answers ILLEGAL is the model's own (log 11): R170 says so of the request's OP. -/
def Obligations.AddDeltaAnswersTheSum : Prop :=
  ∀ (s : State) (a b : Word),
    (s.cfg.hasAdd = true → ∃ (t : State) (v : BitVec s.W),
      exec (.addDelta a b) s = .next t ∧ t.rsp = some (numResponse s.cfg v) ∧
      (0 ≤ ((fromGrey (a.setWidth s.W)).toNat : Int) + (b.setWidth s.W).toInt →
        ((fromGrey (a.setWidth s.W)).toNat : Int) + (b.setWidth s.W).toInt ≤ 2 ^ s.W - 1 →
        t = { s with rsp := some (numResponse s.cfg v) } ∧
        ((fromGrey v).toNat : Int) = (fromGrey (a.setWidth s.W)).toNat + (b.setWidth s.W).toInt) ∧
      (b.setWidth s.W = 0 → v = a.setWidth s.W)) ∧
    (s.cfg.hasAdd = false →
      exec (.addDelta a b) s = .next { s with rsp := some (illegalAnswer s.cfg) })

/-- ADD_DELTA out of range still completes: some W-bit RESULT, STATUS 0 (R171). That the draw counter goes up
by one is the model's own (log 2). -/
def Obligations.AddDeltaOutOfRangeStillAnswers : Prop :=
  ∀ (s : State) (a b : Word), s.cfg.hasAdd = true →
    (((fromGrey (a.setWidth s.W)).toNat : Int) + (b.setWidth s.W).toInt < 0 ∨
      2 ^ s.W ≤ ((fromGrey (a.setWidth s.W)).toNat : Int) + (b.setWidth s.W).toInt) →
    ∃ v : BitVec s.W, exec (.addDelta a b) s =
      .next { s with rsp := some (numResponse s.cfg v), draws := s.draws + 1 }

/-- R172: away from the boundary ADD_DELTA by +1 is INC and by −1 is DEC; at the boundary the sum is out of
range, so that ADD_DELTA gives a draw, where INC and DEC wrap and INC_SAT and DEC_SAT saturate. -/
def Obligations.AddDeltaAgreesWithStepperInRange : Prop :=
  ∀ (s : State) (a b b' : Word), s.cfg.hasAdd = true →
    ((b.setWidth s.W).toInt = 1 →
      (a.setWidth s.W ≠ maxg s.W → exec (.addDelta a b) s = exec (.inc a b') s) ∧
      (a.setWidth s.W = maxg s.W →
        ((fromGrey (a.setWidth s.W)).toNat : Int) + (b.setWidth s.W).toInt = 2 ^ s.W ∧
        (∃ t v, exec (.addDelta a b) s = .next t ∧ t.rsp = some (numResponse s.cfg v)) ∧
        exec (.inc a b') s = .next { s with rsp := some (numResponse s.cfg 0) } ∧
        (s.cfg.hasSat = true →
          exec (.incSat a b') s = .next { s with rsp := some (numResponse s.cfg (maxg s.W)) }))) ∧
    ((b.setWidth s.W).toInt = -1 →
      (a.setWidth s.W ≠ 0 → exec (.addDelta a b) s = exec (.dec a b') s) ∧
      (a.setWidth s.W = 0 →
        ((fromGrey (a.setWidth s.W)).toNat : Int) + (b.setWidth s.W).toInt = -1 ∧
        (∃ t v, exec (.addDelta a b) s = .next t ∧ t.rsp = some (numResponse s.cfg v)) ∧
        exec (.dec a b') s = .next { s with rsp := some (numResponse s.cfg (maxg s.W)) } ∧
        (s.cfg.hasSat = true →
          exec (.decSat a b') s = .next { s with rsp := some (numResponse s.cfg 0) })))

/-! ### Illegal requests -/

/-- R202: the meaning of the reserved row, in every state and for every A and B: the ILLEGAL response, and
nothing else changes. R202 says so of the reserved OP values of R66. That a reserved term with a defined OP, which
no request decodes to, answers the same is the model's own (log 11). -/
def Obligations.ReservedAnswersIllegal : Prop :=
  ∀ (s : State) (op : BitVec 4) (a b : Word),
    exec (.reserved op a b) s =
      .next { s with rsp := some ⟨.illegal, 0, 0, List.replicate s.W 0x00#8⟩ }

/-- R66: every reserved encoding, served, gets the ILLEGAL response, whatever A and B are: it stands on the ports,
the request's host holds it (log 15), and nothing else changes. When it is served is log 4. -/
def Obligations.ReservedEncodingsGetIllegal : Prop :=
  ∀ (s : State) (q : HostRequest) (qs : List HostRequest), s.blockTurn = true → s.accepted = q :: qs →
    (8 ≤ q.req.op.toNat ∨ ((q.req.op = 4 ∨ q.req.op = 5) ∧ s.cfg.hasSat = false) ∨
      (q.req.op = 7 ∧ s.cfg.hasAdd = false)) →
    ∃ t, step s = .next t ∧ t.rsp = some ⟨.illegal, 0, 0, List.replicate s.W 0x00#8⟩ ∧
      t.heldBy q.host = t.rsp ∧ (∀ h, h ≠ q.host → t.heldBy h = s.heldBy h) ∧
      t.cfg = s.cfg ∧ t.events = s.events.tail ∧ t.accepted = qs ∧ t.draws = s.draws

/-- R202: after an ILLEGAL response the block serves the next request as if the illegal one had not been: the
state is the same, but for what the illegal request's host holds if the next request is another host's. That silent
hosts let the block answer at every step is the model's own (log 4), and so is what each host holds (log 15). That an
ADD_DELTA out of range draws the same value in both runs is the model's own too, since their draw counters are equal
(log 2): R171 gives a draw no law. -/
def Obligations.IllegalRequestLeavesNoTrace : Prop :=
  ∀ (s : State) (q q' : HostRequest) (qs : List HostRequest), s.events = [] → s.accepted = q :: q' :: qs →
    s.cfg.isReserved q.req.op = true →
    ∃ t u v, step s = .next t ∧ step t = .next u ∧ step { s with accepted := q' :: qs } = .next v ∧
      u = { v with held := u.held } ∧ (q.host = q'.host → u = v) ∧
      ∀ h, h ≠ q.host → u.heldBy h = v.heldBy h

/-- R201, R203: every request is answered, and STATUS is ILLEGAL exactly when its opcode is reserved or absent.
-/
def Obligations.StatusTellsReservedOpcodes : Prop :=
  ∀ (s : State) (q : Request), ∃ t r,
    exec (decodeRequest s.cfg q) s = .next t ∧ t.rsp = some r ∧
    (r.status = .illegal ↔
      8 ≤ q.op.toNat ∨ ((q.op = 4 ∨ q.op = 5) ∧ s.cfg.hasSat = false) ∨
        (q.op = 7 ∧ s.cfg.hasAdd = false)) ∧
    (r.status = .illegal ∨ r.status = .ok)

/-! ### Statelessness -/

/-- R63, R25: every opcode but 0x7 ignores B. -/
def Obligations.OperandBIsIgnored : Prop :=
  ∀ (s : State) (op : BitVec 4) (a b b' : Word), op ≠ 0x7 →
    ∃ t, exec (decodeRequest s.cfg ⟨op, a, b⟩) s = .next t ∧
      exec (decodeRequest s.cfg ⟨op, a, b'⟩) s = .next t

/-- R21, R48: two instances with the same parameters, whatever they were asked before, give a request the same
response, apart from the draw of ADD_DELTA out of range. -/
def Obligations.ResponseDependsOnItsRequestOnly : Prop :=
  ∀ (s s' : State) (q : Request), s.cfg = s'.cfg →
    (q.op = 0x7 → s.cfg.hasAdd = true →
      0 ≤ ((fromGrey (q.a.setWidth s.W)).toNat : Int) + (q.b.setWidth s.W).toInt ∧
      ((fromGrey (q.a.setWidth s.W)).toNat : Int) + (q.b.setWidth s.W).toInt ≤ 2 ^ s.W - 1) →
    ∃ r, exec (decodeRequest s.cfg q) s = .next { s with rsp := some r } ∧
      exec (decodeRequest s'.cfg q) s' = .next { s' with rsp := some r }

/-- The frame of every instruction: it changes the response, and nothing else but the model's own draw counter,
which only ADD_DELTA out of range changes (log 2). That INC_SAT, DEC_SAT and ADD_DELTA complete without their feature,
and the reserved row at a defined OP, is the model's own (log 11). -/
def Obligations.InstructionsChangeOnlyTheResponse : Prop :=
  ∀ (i : Instr) (s : State), ∃ r n,
    exec i s = .next { s with rsp := some r, draws := n } ∧
    (n ≠ s.draws → ∃ a b, i = .addDelta a b ∧ s.cfg.hasAdd = true ∧
      (((fromGrey (a.setWidth s.W)).toNat : Int) + (b.setWidth s.W).toInt < 0 ∨
        2 ^ s.W ≤ ((fromGrey (a.setWidth s.W)).toNat : Int) + (b.setWidth s.W).toInt))

/-! ### Steps, the host interface and reset -/

/-- A step runs the decoded request. At the block's turn (log 4) it takes the event, if there is one, and the
oldest accepted request, and is `exec` of that request's instruction, whose response the request's host then holds
(log 15). The same for a word that `withFetchWord` places (log 6), as host 0's request. -/
def Obligations.StepRunsTheDecodedRequest : Prop :=
  (∀ (s : State) (q : HostRequest) (qs : List HostRequest), s.blockTurn = true → s.accepted = q :: qs →
    ∃ t r, exec (decodeRequest s.cfg q.req) { s with events := s.events.tail, accepted := qs } = .next t ∧
      t.rsp = some r ∧ step s = .next { t with held := hold q.host r t.held }) ∧
  (∀ (s : State) (i : Instr) (nbits w : Nat), decode s.cfg (w % 2 ^ nbits) = .ok i →
    ∃ t r, exec i s = .next t ∧ t.rsp = some r ∧
      step (s.withFetchWord nbits w) = .next { t with held := hold 0 r t.held })

/-- R211: hosts of one instance share nothing. The response of a served request is held by the host that presented
it, and what every other host holds stays; and whatever other hosts were answered or wait for, a host's request gets
the response it would get if that host were alone with the instance, apart from the draw of ADD_DELTA out of range.
The schedule, the numbering of hosts and what each host holds are the model's own (log 4, log 14, log 15). -/
def Obligations.HostsShareNothing : Prop :=
  ∀ (s : State) (q : HostRequest) (qs : List HostRequest), s.blockTurn = true → s.accepted = q :: qs →
    (∃ t r, step s = .next t ∧ t.rsp = some r ∧ t.heldBy q.host = some r ∧
      ∀ h, h ≠ q.host → t.heldBy h = s.heldBy h) ∧
    ((q.req.op = 0x7 → s.cfg.hasAdd = true →
        0 ≤ ((fromGrey (q.req.a.setWidth s.W)).toNat : Int) + (q.req.b.setWidth s.W).toInt ∧
        ((fromGrey (q.req.a.setWidth s.W)).toNat : Int) + (q.req.b.setWidth s.W).toInt ≤ 2 ^ s.W - 1) →
      ∃ t t', step s = .next t ∧ step { State.resetOf s.cfg with accepted := [q] } = .next t' ∧
        t.heldBy q.host = t'.heldBy q.host)

/-- R211, R28: a host reads its own last response only. Another host's response, delivered before or after, changes
nothing of what it reads, and a read before its own first response faults although others were answered. How hosts
are numbered and that the fault stops the machine is the model's own (log 12, log 14, log 15). -/
def Obligations.HostReadsItsOwnResponseOnly : Prop :=
  ∀ (s t : State) (q : HostRequest) (qs : List HostRequest) (h : Nat) (f : RspField),
    s.blockTurn = true → s.accepted = q :: qs → h ≠ q.host → step s = .next t →
    readField t h f = readField s h f ∧
    (s.heldBy h = none → ∀ es, step { t with events := .read h f :: es } = .fault .noResponse)

/-- Every served request gets a response that the spec's reference meaning allows and that its host then holds
(log 15), and the step changes nothing else but the schedule (log 4), the queue and the model's draw counter
(log 2). -/
def Obligations.ServedRequestIsAnsweredAsTheSpecSays : Prop :=
  ∀ (s : State) (q : HostRequest) (qs : List HostRequest), s.blockTurn = true → s.accepted = q :: qs →
    ∃ r n, step s = .next { s with
        events := s.events.tail, accepted := qs, rsp := some r, held := hold q.host r s.held, draws := n } ∧
      Answers s.cfg q.req r

/-- R27, R252: with silent hosts, k steps answer the k oldest requests in acceptance order, one response each,
to the host that asked, which then holds it (log 15). The order is R27's and that every request is answered is
R252's; that a block with silent hosts answers a request at every step is the model's own (log 4). -/
def Obligations.ResponsesLeaveInAcceptanceOrder : Prop :=
  ∀ (s : State) (k : Nat), s.events = [] → k ≤ s.accepted.length →
    ∃ t, core.run k s = .next t ∧ t.cfg = s.cfg ∧ t.events = [] ∧ t.accepted = s.accepted.drop k ∧
      (k = 0 → t = s) ∧
      ∀ q, 0 < k → s.accepted[k - 1]? = some q →
        ∃ r, t.rsp = some r ∧ t.heldBy q.host = some r ∧ Answers s.cfg q.req r

/-- R27, R252: under every orderly schedule (no reset, no power loss, no premature read) all requests are
answered, those accepted and those still presented: after finitely many steps nothing is left, the responses
delivered on the way answer the requests one by one, in order, each to the host that asked, and every host holds
the last one it received (log 15). That a block with silent hosts answers at every step, on which the bound
rests, is the model's own (log 4). -/
def Obligations.EveryAcceptedRequestIsAnswered : Prop :=
  ∀ s : State, s.orderly = true →
    ∃ k t, k ≤ s.events.length + s.awaited.length ∧ core.run k s = .next t ∧
      t.events = [] ∧ t.accepted = [] ∧ t.cfg = s.cfg ∧
      List.Forall₂ (fun q d => d.1 = q.host ∧ Answers s.cfg q.req d.2) s.awaited (deliveries k s) ∧
      (s.awaited ≠ [] → t.rsp = (deliveries k s).getLast?.map Prod.snd) ∧
      ∀ h, t.heldBy h =
        (((deliveries k s).filter fun d => d.1 == h).getLast?.map Prod.snd).or (s.heldBy h)

/-- R27: no response comes without a request. A step that serves no request leaves the responses as they were,
or takes them away (reset and power loss). That a step with nothing to do is a next state is the model's own
(log 6). -/
def Obligations.NoResponseWithoutARequest : Prop :=
  ∀ s t : State, (s.blockTurn = true → s.accepted = []) → step s = .next t →
    (t.rsp = s.rsp ∧ t.held = s.held ∨ t.rsp = none ∧ t.held = []) ∧
    (s.blockTurn = true → t = { s with events := s.events.tail })

/-- R27, R214: a request a host presents, with any OP, A and B, is accepted behind the earlier ones; nothing is
answered by that. The ports carry W bits of each operand (log 3). -/
def Obligations.PresentedRequestIsAccepted : Prop :=
  ∀ (s : State) (h : Nat) (q : Request) (es : List Event), s.events = .request h q :: es →
    ∃ q', step s = .next { s with events := es, accepted := s.accepted ++ [⟨h, q'⟩] } ∧ q'.wf s.cfg = true ∧
      q'.op = q.op ∧ q'.a.setWidth s.W = q.a.setWidth s.W ∧ q'.b.setWidth s.W = q.b.setWidth s.W ∧
      (q.wf s.cfg = true → q' = q)

/-- R28, R45: a host's read before its first response after reset faults; a later one gives the field of the last
response it received and changes nothing. That the fault stops the machine, and that a field is read whole, is the
model's own (log 12), and so is reading R28 for each of several hosts (log 15). -/
def Obligations.ReadFaultsOnlyBeforeAResponse : Prop :=
  ∀ (s : State) (h : Nat) (f : RspField) (es : List Event), s.events = .read h f :: es →
    (s.heldBy h = none → step s = .fault .noResponse) ∧
    (∀ r, s.heldBy h = some r → step s = .next { s with events := es } ∧ readField s h f = .ok (r.field f))

/-- R240, R241, R242: reset drops every accepted request without a response, takes away the response values and
leaves the parameters. -/
def Obligations.ResetDropsAcceptedRequests : Prop :=
  ∀ (s : State) (es : List Event), s.events = .reset :: es →
    ∃ t, step s = .next t ∧ t.accepted = [] ∧ t.rsp = none ∧ (∀ h, t.heldBy h = none) ∧ t.cfg = s.cfg ∧
      t.events = es

/-- R213: power loss loses a request in flight the same way as reset. That the response value goes as well is
the model's reading (log 5). -/
def Obligations.PowerLossActsAsReset : Prop :=
  ∀ (s : State) (es : List Event), s.events = .powerLoss :: es →
    ∃ t, step s = .next t ∧ step { s with events := .reset :: es } = .next t

/-- R240, R252: right after reset, an instance of any parameters accepts a request at once, with no
configuration and no warm-up (R240), and answers it (R252), and the host holds the response (log 15). That the
second step already answers, since the hosts are silent, is the model's own (log 4). -/
def Obligations.FirstRequestAfterResetIsAnswered : Prop :=
  ∀ (c : Config) (h : Nat) (q : Request), q.wf c = true →
    ∃ t r, core.run 2 { State.resetOf c with events := [.request h q] } = .next t ∧ t.rsp = some r ∧
      t.heldBy h = some r ∧ Answers c q r ∧ t.accepted = []

/-- R24, R242: no step changes a parameter. -/
def Obligations.ParametersNeverChange : Prop :=
  ∀ s t : State, step s = .next t → t.cfg = s.cfg

/-- R252: a step always gives a next state, whatever the request, except a host's premature read, which faults
(R28). Nothing is refused. That a step with nothing to do is a next state too, and not a stop, is the model's own
(log 6), and so is that a premature read stops the whole machine (log 12). -/
def Obligations.StepStopsOnlyOnPrematureReads : Prop :=
  ∀ s : State,
    (s.prematureRead = false → ∃ t, step s = .next t) ∧
    (s.prematureRead = true → step s = .fault .noResponse)

/-- Every step keeps the invariant: accepted requests fit the ports, every response delivered or held is well
formed, and the hosts that hold one stand in rising order. -/
def Obligations.StepKeepsResponsesWellFormed : Prop :=
  ∀ s t : State, s.Inv → step s = .next t → t.Inv

/-- The invariant holds right after reset, for every instance. -/
def Obligations.ResetStateIsWellFormed : Prop :=
  State.reset.Inv ∧ ∀ c : Config, (State.resetOf c).Inv ∧ (State.resetOf c).rsp = none ∧
    (∀ h, (State.resetOf c).heldBy h = none) ∧ (State.resetOf c).accepted = [] ∧ (State.resetOf c).cfg = c
end

