-- ==== Sys2Proof/Laws/Bits.lean ====
section
/-! SUPPORT. The bit-level helpers, bit by bit. -/

namespace Sys2Proof.Machine

theorem width_bits_pos (w : Width) : 0 < w.bits := by cases w <;> decide

theorem width_bits_le (w : Width) : w.bits ≤ 64 := by cases w <;> decide

/-- The bits of `ofBits n f` are those of `f` below `n`. -/
theorem getLsbD_ofBits (n : Nat) (f : Nat → Bool) (i : Nat) :
    (ofBits n f).getLsbD i = (decide (i < n) && f i) := by
  induction n with
  | zero => simp [ofBits]
  | succ n ih =>
    rw [ofBits, BitVec.getLsbD_cons, ih]
    by_cases h : i = n
    · simp [h]
    · have : (i < n + 1) = (i < n) := by simp; omega
      simp [h, this]

/-- Bit by bit, `to_grey` is `v[i] XOR v[i+1]`, with a 0 above bit W−1 (R101). -/
theorem getLsbD_toGrey {n : Nat} (v : BitVec n) (i : Nat) :
    (toGrey v).getLsbD i = (v.getLsbD i ^^ v.getLsbD (i + 1)) := by
  simp [toGrey, Nat.add_comm]

/-- Bit by bit, `from_grey` is the XOR run of R103. -/
theorem getLsbD_fromGrey {n : Nat} (g : BitVec n) (i : Nat) :
    (fromGrey g).getLsbD i = (decide (i < n) && xorRun g i (n - i)) := getLsbD_ofBits _ _ _

/-- A run splits off its lowest bit. -/
theorem xorRun_succ_left {n : Nat} (g : BitVec n) (i k : Nat) :
    xorRun g i (k + 1) = (g.getLsbD i ^^ xorRun g (i + 1) k) := by
  induction k with
  | zero => simp [xorRun]
  | succ k ih =>
    rw [xorRun, ih, xorRun, Bool.xor_assoc, show i + (k + 1) = i + 1 + k by omega]

/-- What a port carries of a word it drove is that word. -/
theorem portValue_toWord (c : Config) (v : BitVec c.W) : portValue c (toWord v) = v := by
  have h : c.W ≤ 64 := width_bits_le c.width
  simp only [portValue, toWord]
  rw [BitVec.setWidth_setWidth_of_le v h, BitVec.setWidth_eq]

/-- A W-bit value in a container keeps its number. -/
theorem toNat_toWord (c : Config) (v : BitVec c.W) : (toWord v).toNat = v.toNat := by
  have h : c.W ≤ 64 := width_bits_le c.width
  have : v.toNat < 2 ^ 64 := Nat.lt_of_lt_of_le v.isLt (Nat.pow_le_pow_right (by decide) h)
  rw [toWord, BitVec.toNat_setWidth, Nat.mod_eq_of_lt this]

/-- `hsb` below `k` is at most `k`. -/
theorem hsbBelow_le {n : Nat} (v : BitVec n) (k : Nat) : hsbBelow v k ≤ k := by
  induction k with
  | zero => simp [hsbBelow]
  | succ k ih =>
    rw [hsbBelow]
    split <;> omega

/-- The bit `hsb` names is 1 (R17). -/
theorem getLsbD_hsbBelow {n : Nat} (v : BitVec n) (k : Nat) (h : hsbBelow v k ≠ 0) :
    v.getLsbD (hsbBelow v k - 1) = true := by
  induction k with
  | zero => simp [hsbBelow] at h
  | succ k ih =>
    rw [hsbBelow] at h ⊢
    split
    · simpa
    · rename_i hk
      rw [if_neg hk] at h
      exact ih h

/-- No bit between `hsb` and `k` is 1 (R17). -/
theorem getLsbD_of_hsbBelow_le {n : Nat} (v : BitVec n) (k i : Nat) (h : hsbBelow v k ≤ i) (hi : i < k) :
    v.getLsbD i = false := by
  induction k with
  | zero => omega
  | succ k ih =>
    rw [hsbBelow] at h
    split at h
    · omega
    · rename_i hk
      rcases Nat.lt_succ_iff_lt_or_eq.mp hi with hlt | rfl
      · exact ih h hlt
      · simpa using hk

/-- Unpacking reads the low 2W+4 bits only (log 7). -/
theorem unpackRequest_mod (c : Config) (w : Nat) :
    unpackRequest c (w % 2 ^ requestBits c) = unpackRequest c w := by
  have op : BitVec.ofNat 4 (w % 2 ^ requestBits c) = BitVec.ofNat 4 w :=
    BitVec.eq_of_toNat_eq (by
      simpa using Nat.mod_mod_of_dvd w (Nat.pow_dvd_pow 2 (show 4 ≤ requestBits c by simp [requestBits])))
  have field : ∀ k, k + c.W ≤ requestBits c →
      (w % 2 ^ requestBits c) >>> k % 2 ^ c.W = w >>> k % 2 ^ c.W := fun k hk => by
    apply Nat.eq_of_testBit_eq
    intro i
    simp only [Nat.testBit_mod_two_pow, Nat.testBit_shiftRight]
    by_cases hi : i < c.W
    · simp [hi, show k + i < requestBits c by omega]
    · simp [hi]
  rw [unpackRequest, op, field 4 (by simp only [requestBits]; omega), field (c.W + 4) (by simp only [requestBits]; omega),
    unpackRequest]

end Sys2Proof.Machine
end

