-- ==== Sys2Proof/Laws/PerInstr.lean ====
section
/-! SUPPORT. Statements about every instruction as syntax, one lemma for each constructor. -/

namespace Sys2Proof.Laws.DecodesBack

/-- Issuing a well-formed instruction as a request and decoding the request gives it back (R65). -/
def Statement (i : Instr) : Prop := ∀ c : Config, i.wf c = true → decodeRequest c i.toRequest = i

theorem toGrey (a b : Word) : Statement (.toGrey a b) := fun _ _ => rfl

theorem fromGrey (a b : Word) : Statement (.fromGrey a b) := fun _ _ => rfl

theorem inc (a b : Word) : Statement (.inc a b) := fun _ _ => rfl

theorem dec (a b : Word) : Statement (.dec a b) := fun _ _ => rfl

theorem incSat (a b : Word) : Statement (.incSat a b) := by
  intro c h
  have hs : c.hasSat = true := by simp [Instr.wf] at h; exact h.1.1
  simp [decodeRequest, Instr.toRequest, Instr.opcode, Instr.operandA, Instr.operandB, hs]

theorem decSat (a b : Word) : Statement (.decSat a b) := by
  intro c h
  have hs : c.hasSat = true := by simp [Instr.wf] at h; exact h.1.1
  simp [decodeRequest, Instr.toRequest, Instr.opcode, Instr.operandA, Instr.operandB, hs]

theorem render (a b : Word) : Statement (.render a b) := fun _ _ => rfl

theorem addDelta (a b : Word) : Statement (.addDelta a b) := by
  intro c h
  have hs : c.hasAdd = true := by simp [Instr.wf] at h; exact h.1.1
  simp [decodeRequest, Instr.toRequest, Instr.opcode, Instr.operandA, Instr.operandB, hs]

theorem reserved (op : BitVec 4) (a b : Word) : Statement (.reserved op a b) := by
  intro c h
  have hr : c.isReserved op = true := by simp [Instr.wf] at h; exact h.1.1
  have key : ∀ (sat add : Bool) (op : BitVec 4),
      (decide (8 ≤ op.toNat) || (!sat && (op == 4#4 || op == 5#4)) || (!add && op == 7#4)) = true →
      8 ≤ op.toNat ∨ (sat = false ∧ op.toNat = 4) ∨ (sat = false ∧ op.toNat = 5) ∨
        (add = false ∧ op.toNat = 7) := by decide
  rcases key _ _ _ hr with h8 | ⟨hs, ho⟩ | ⟨hs, ho⟩ | ⟨hs, ho⟩
  · simp only [decodeRequest, Instr.toRequest, Instr.opcode, Instr.operandA, Instr.operandB]
    split <;> first | omega | rfl
  all_goals simp [decodeRequest, Instr.toRequest, Instr.opcode, Instr.operandA, Instr.operandB, ho, hs]

end Sys2Proof.Laws.DecodesBack
end

