-- ==== Sys2Proof/Laws/State.lean ====
section
/-! SUPPORT. One lemma for each field of State under each update. -/

namespace Sys2Proof.Machine

section withResponse
variable (s : State) (r : Response)
@[simp] theorem State.withResponse_cfg : (s.withResponse r).cfg = s.cfg := rfl
@[simp] theorem State.withResponse_events : (s.withResponse r).events = s.events := rfl
@[simp] theorem State.withResponse_accepted : (s.withResponse r).accepted = s.accepted := rfl
@[simp] theorem State.withResponse_rsp : (s.withResponse r).rsp = some r := rfl
@[simp] theorem State.withResponse_held : (s.withResponse r).held = s.held := rfl
@[simp] theorem State.withResponse_draws : (s.withResponse r).draws = s.draws := rfl
end withResponse

section withDraws
variable (s : State) (n : Nat)
@[simp] theorem State.withDraws_cfg : (s.withDraws n).cfg = s.cfg := rfl
@[simp] theorem State.withDraws_events : (s.withDraws n).events = s.events := rfl
@[simp] theorem State.withDraws_accepted : (s.withDraws n).accepted = s.accepted := rfl
@[simp] theorem State.withDraws_rsp : (s.withDraws n).rsp = s.rsp := rfl
@[simp] theorem State.withDraws_held : (s.withDraws n).held = s.held := rfl
@[simp] theorem State.withDraws_draws : (s.withDraws n).draws = n := rfl
end withDraws

section withAccepted
variable (s : State) (q : List HostRequest)
@[simp] theorem State.withAccepted_cfg : (s.withAccepted q).cfg = s.cfg := rfl
@[simp] theorem State.withAccepted_events : (s.withAccepted q).events = s.events := rfl
@[simp] theorem State.withAccepted_accepted : (s.withAccepted q).accepted = q := rfl
@[simp] theorem State.withAccepted_rsp : (s.withAccepted q).rsp = s.rsp := rfl
@[simp] theorem State.withAccepted_held : (s.withAccepted q).held = s.held := rfl
@[simp] theorem State.withAccepted_draws : (s.withAccepted q).draws = s.draws := rfl
end withAccepted

section withEvents
variable (s : State) (es : List Event)
@[simp] theorem State.withEvents_cfg : (s.withEvents es).cfg = s.cfg := rfl
@[simp] theorem State.withEvents_events : (s.withEvents es).events = es := rfl
@[simp] theorem State.withEvents_accepted : (s.withEvents es).accepted = s.accepted := rfl
@[simp] theorem State.withEvents_rsp : (s.withEvents es).rsp = s.rsp := rfl
@[simp] theorem State.withEvents_held : (s.withEvents es).held = s.held := rfl
@[simp] theorem State.withEvents_draws : (s.withEvents es).draws = s.draws := rfl
end withEvents

section withHeld
variable (s : State) (l : List (Nat × Response))
@[simp] theorem State.withHeld_cfg : (s.withHeld l).cfg = s.cfg := rfl
@[simp] theorem State.withHeld_events : (s.withHeld l).events = s.events := rfl
@[simp] theorem State.withHeld_accepted : (s.withHeld l).accepted = s.accepted := rfl
@[simp] theorem State.withHeld_rsp : (s.withHeld l).rsp = s.rsp := rfl
@[simp] theorem State.withHeld_held : (s.withHeld l).held = l := rfl
@[simp] theorem State.withHeld_draws : (s.withHeld l).draws = s.draws := rfl
end withHeld

section resetOf
variable (c : Config)
@[simp] theorem State.resetOf_cfg : (State.resetOf c).cfg = c := rfl
@[simp] theorem State.resetOf_events : (State.resetOf c).events = [] := rfl
@[simp] theorem State.resetOf_accepted : (State.resetOf c).accepted = [] := rfl
@[simp] theorem State.resetOf_rsp : (State.resetOf c).rsp = none := rfl
@[simp] theorem State.resetOf_held : (State.resetOf c).held = [] := rfl
@[simp] theorem State.resetOf_draws : (State.resetOf c).draws = 0 := rfl
end resetOf

end Sys2Proof.Machine
end

