-- ==== Sys2Proof/Laws/Ops.lean ====
section
/-! SUPPORT. For each shared operation, one lemma that says what it can do. -/

namespace Sys2Proof.Machine

theorem respondNum_eq_next {s t : State} {v : BitVec s.W} :
    respondNum s v = .next t ↔ t = s.withResponse (numResponse s.cfg v) := by
  simp [respondNum, eq_comm]

theorem respondStr_eq_next {s t : State} {chars : List Byte} :
    respondStr s chars = .next t ↔ t = s.withResponse (strResponse s.cfg chars) := by
  simp [respondStr, eq_comm]

theorem raiseIllegal_eq_next {s t : State} :
    raiseIllegal s = .next t ↔ t = s.withResponse (illegalResponse s.cfg) := by
  simp [raiseIllegal, eq_comm]

/-- A draw gives some W-bit RESULT, with the shape of every numeric response (R171). -/
theorem respondDraw_next (s : State) (a b : BitVec s.W) :
    ∃ v, respondDraw s a b = .next ((s.withDraws (s.draws + 1)).withResponse (numResponse s.cfg v)) :=
  ⟨_, rfl⟩

theorem acceptRequest_eq_next {s t : State} {h : Nat} {r : Request} :
    acceptRequest s h r = .next t ↔ t = s.withAccepted (s.accepted ++ [⟨h, onPorts s.cfg r⟩]) := by
  simp [acceptRequest, eq_comm]

theorem applyReset_eq_next {s t : State} :
    applyReset s = .next t ↔
      t.cfg = s.cfg ∧ t.events = s.events ∧ t.accepted = [] ∧ t.rsp = none ∧ t.held = [] ∧
        t.draws = s.draws := by
  obtain ⟨c, es, q, r, l, n⟩ := t
  simp only [applyReset, State.withAccepted, State.withHeld, Host.Outcome.next.injEq, State.mk.injEq]
  constructor
  · rintro ⟨rfl, rfl, rfl, rfl, rfl, rfl⟩
    simp
  · rintro ⟨rfl, rfl, rfl, rfl, rfl, rfl⟩
    simp

/-- Looking up a host in a list that begins with an entry. -/
theorem lookup_cons_eq (k j : Nat) (x : Response) (l : List (Nat × Response)) :
    ((j, x) :: l).lookup k = if k = j then some x else l.lookup k := by
  by_cases h : k = j
  · simp [h]
  · simp [List.lookup_cons, h, beq_eq_false_iff_ne.mpr h]

/-- Receiving a response changes what that host holds, and nothing for another host (R211). -/
theorem lookup_hold (h k : Nat) (r : Response) (l : List (Nat × Response)) :
    (hold h r l).lookup k = if k = h then some r else l.lookup k := by
  induction l with
  | nil => rw [hold, lookup_cons_eq]
  | cons p l ih =>
    obtain ⟨j, x⟩ := p
    rw [hold]
    split
    · rw [lookup_cons_eq]
    · split
      · rename_i hj
        rw [lookup_cons_eq, lookup_cons_eq, ← hj]
        split <;> rfl
      · rename_i hj
        rw [lookup_cons_eq, lookup_cons_eq, ih]
        split
        · rename_i hk
          rw [if_neg fun e => hj (e.symm.trans hk)]
        · rfl

/-- Whom `hold` lists: the host, and those listed before. -/
theorem mem_hold {h : Nat} {r : Response} {l : List (Nat × Response)} {p : Nat × Response}
    (hp : p ∈ hold h r l) : p = (h, r) ∨ p ∈ l := by
  induction l with
  | nil => simpa [hold] using hp
  | cons q l ih =>
    obtain ⟨j, x⟩ := q
    rw [hold] at hp
    split at hp
    · simpa using hp
    · split at hp
      · rcases List.mem_cons.mp hp with rfl | hp
        · exact .inl rfl
        · exact .inr (List.mem_cons_of_mem _ hp)
      · rcases List.mem_cons.mp hp with rfl | hp
        · exact .inr List.mem_cons_self
        · exact (ih hp).imp id (List.mem_cons_of_mem _)

/-- The hosts that hold a response after a delivery: its host, and those that held one before. -/
theorem mem_hosts_hold (h k : Nat) (r : Response) (l : List (Nat × Response)) :
    k ∈ (hold h r l).map Prod.fst ↔ k = h ∨ k ∈ l.map Prod.fst := by
  induction l with
  | nil => simp [hold]
  | cons p l ih =>
    rw [hold]
    split
    · simp
    · split
      · rename_i hj
        simp [hj]
      · simp only [List.map_cons, List.mem_cons, ih]
        exact or_left_comm

/-- A host holds a response when it is listed. -/
theorem heldBy_isSome (s : State) (h : Nat) : (s.heldBy h).isSome = true ↔ h ∈ s.held.map Prod.fst := by
  rw [State.heldBy]
  generalize s.held = l
  induction l with
  | nil => simp
  | cons p l ih =>
    rw [lookup_cons_eq, List.map_cons, List.mem_cons, ← ih]
    split <;> simp_all

/-- `hold` keeps the hosts in rising order. -/
theorem hold_sorted (h : Nat) (r : Response) {l : List (Nat × Response)}
    (hl : (l.map Prod.fst).Pairwise (· < ·)) : ((hold h r l).map Prod.fst).Pairwise (· < ·) := by
  induction l with
  | nil => simp [hold]
  | cons p l ih =>
    obtain ⟨j, x⟩ := p
    rw [List.map_cons, List.pairwise_cons] at hl
    obtain ⟨hj, hl'⟩ := hl
    rw [hold]
    split
    · rename_i hlt
      simp only [List.map_cons, List.pairwise_cons, List.mem_cons, forall_eq_or_imp]
      exact ⟨⟨hlt, fun k hk => Nat.lt_trans hlt (hj k hk)⟩, hj, hl'⟩
    · split
      · rename_i he
        rw [List.map_cons, List.pairwise_cons]
        exact ⟨he ▸ hj, hl'⟩
      · rename_i hlt hne
        rw [List.map_cons, List.pairwise_cons]
        refine ⟨fun k hk => ?_, ih hl'⟩
        obtain ⟨p, hp, rfl⟩ := List.mem_map.mp hk
        rcases mem_hold hp with rfl | hp
        · exact Nat.lt_of_le_of_ne (Nat.not_lt.mp hlt) (Ne.symm hne)
        · exact hj _ (List.mem_map_of_mem hp)

/-- A second response to a host takes the place of the first. -/
theorem hold_hold (h : Nat) (r r' : Response) (l : List (Nat × Response)) :
    hold h r' (hold h r l) = hold h r' l := by
  induction l with
  | nil => simp [hold]
  | cons p l ih =>
    obtain ⟨j, x⟩ := p
    by_cases hlt : h < j
    · simp [hold, hlt]
    · by_cases he : h = j
      · simp [hold, he]
      · simp [hold, hlt, he, ih]

/-- Delivering what an instruction answered: the host holds it, and the rest is as the instruction left it. -/
theorem deliverTo_withResponse (h : Nat) (s : State) (r : Response) :
    deliverTo h (.next (s.withResponse r)) = .next ((s.withResponse r).withHeld (hold h r s.held)) := rfl

/-- A read gives the same state, or faults before the host's first response (R28, R45). -/
theorem hostRead_eq (s : State) (h : Nat) (f : RspField) :
    hostRead s h f = if (s.heldBy h).isSome then .next s else .fault .noResponse := by
  rcases hr : s.heldBy h with _ | r <;> simp [hostRead, readField, hr]

@[simp] theorem padStr_length (c : Config) (chars : List Byte) : (padStr c chars).length = c.W := by
  simp [padStr]

/-- STR, position by position (R154). -/
theorem padStr_getElem? (c : Config) (chars : List Byte) {i : Nat} (h : i < c.W) :
    (padStr c chars)[i]? = some (chars.getD i 0x00#8) := by
  simp [padStr, h]

/-- A numeric response is well formed (R100). -/
theorem numResponse_wf (c : Config) (v : BitVec c.W) : (numResponse c v).WF c := by
  refine ⟨?_, ?_, ?_, ?_, ?_, ?_, ?_⟩
  · rw [numResponse, toNat_toWord]; exact v.isLt
  · simp [numResponse]
  · simp [numResponse]
  · intro i hi _
    simp [numResponse, padStr_getElem? c [] hi]
  · simp [numResponse]
  · simp [numResponse]
  · simp [numResponse]

/-- The ILLEGAL response is well formed (R202). -/
theorem illegalResponse_wf (c : Config) : (illegalResponse c).WF c := by
  refine ⟨?_, ?_, ?_, ?_, ?_, ?_, ?_⟩
  · simp [illegalResponse]
  · simp [illegalResponse]
  · simp [illegalResponse]
  · intro i hi _
    simp [illegalResponse, padStr_getElem? c [] hi]
  · simp [illegalResponse]
  · simp [illegalResponse]
  · simp [illegalResponse]

/-- What a host presents reaches the block as a request its ports can carry (R25). -/
theorem onPorts_wf (c : Config) (r : Request) : (onPorts c r).wf c = true := by
  simp only [Request.wf, onPorts, Config.fits, toNat_toWord, Bool.and_eq_true, decide_eq_true_eq]
  exact ⟨(portValue c r.a).isLt, (portValue c r.b).isLt⟩

/-- Serving with nothing accepted leaves the block ready. -/
theorem serve_nil {s : State} (h : s.accepted = []) : serve s = .next s := by
  simp [serve, fetch, h]

/-- Serving runs the oldest accepted request, and its host receives the response. -/
theorem serve_cons {s : State} {q : HostRequest} {qs : List HostRequest} (h : s.accepted = q :: qs) :
    serve s = deliverTo q.host (exec (decodeRequest s.cfg q.req) (s.withAccepted qs)) := by
  simp [serve, fetch, h]

end Sys2Proof.Machine
end

