-- ==== Sys2Proof/Laws/Render.lean ====
section
/-! SUPPORT. RENDER's characters and its response. -/

namespace Sys2Proof.Machine

/-- RENDER never gives more than W characters (R156). -/
theorem renderChars_length_le (c : Config) (v : BitVec c.W) : (renderChars c v).length ≤ c.W := by
  have h0 : 0 < c.W := width_bits_pos c.width
  rw [renderChars]
  split
  · cases c.zeroRender
    · simp
    · simp only [List.length_singleton]
      omega
  · simpa [render, hsb] using hsbBelow_le v c.W

/-- Every character is '0' or '1' (R153). -/
theorem renderChars_mem (c : Config) (v : BitVec c.W) {x : Byte} (h : x ∈ renderChars c v) :
    x = 0x30#8 ∨ x = 0x31#8 := by
  have hd : ∀ b, digit b = 0x30#8 ∨ digit b = 0x31#8 := by decide
  rw [renderChars] at h
  split at h
  · cases hz : c.zeroRender <;> simp [hz] at h
    exact h ▸ hd false
  · obtain ⟨i, -, rfl⟩ := List.mem_map.mp h
    exact hd _

/-- A string response is well formed for at most W characters '0' and '1' (R151, R153, R154, R155). -/
theorem strResponse_wf (c : Config) (chars : List Byte) (hl : chars.length ≤ c.W)
    (hc : ∀ x ∈ chars, x = 0x30#8 ∨ x = 0x31#8) : (strResponse c chars).WF c := by
  have hW : c.W ≤ 64 := width_bits_le c.width
  have hn : (strResponse c chars).strLen.toNat = chars.length := by
    rw [strResponse, BitVec.toNat_ofNat, Nat.mod_eq_of_lt (by omega)]
  refine ⟨?_, ?_, ?_, ?_, ?_, ?_, ?_⟩
  · simp [strResponse]
  · omega
  · simp [strResponse]
  · intro i hi hle
    rw [hn] at hle
    simp [strResponse, padStr_getElem? c chars hi, List.getElem?_eq_none hle]
  · intro i hi
    rw [hn] at hi
    have hx := hc _ (List.getElem_mem hi)
    simpa [strResponse, padStr_getElem? c chars (by omega : i < c.W), List.getElem?_eq_getElem hi] using hx
  · simp [strResponse]
  · simp [strResponse]

end Sys2Proof.Machine
end

