-- ==== Sys2Proof/Laws/Exec.lean ====
section
/-! SUPPORT. What `exec` can do, said once, and what the decoder gives for a reserved opcode. -/

namespace Sys2Proof.Machine

/-- A reserved opcode decodes to the reserved row (R66). -/
theorem decodeRequest_of_isReserved {c : Config} {q : Request} (h : c.isReserved q.op = true) :
    decodeRequest c q = .reserved q.op q.a q.b := by
  have key := Laws.DecodesBack.reserved q.op 0 0 c (by
    have : (0 : Nat) < 2 ^ c.W := Nat.two_pow_pos _
    simp [Instr.wf, Config.fits, h])
  by_cases hs : c.hasSat = true <;> by_cases ha : c.hasAdd = true <;>
    simp only [decodeRequest, Instr.toRequest, Instr.opcode, hs, ha, if_true] at key ⊢ <;>
    split at key <;> simp_all

/-- Every instruction delivers a well-formed response and gives a next state, in every state. -/
theorem exec_next (i : Instr) (s : State) :
    ∃ r n, exec i s = .next ((s.withDraws n).withResponse r) ∧ r.WF s.cfg := by
  have num : ∀ v : BitVec s.W, ∃ r n,
      respondNum s v = .next ((s.withDraws n).withResponse r) ∧ r.WF s.cfg :=
    fun v => ⟨_, s.draws, rfl, numResponse_wf _ v⟩
  have ill : ∃ r n, raiseIllegal s = .next ((s.withDraws n).withResponse r) ∧ r.WF s.cfg :=
    ⟨_, s.draws, rfl, illegalResponse_wf _⟩
  cases i with
  | toGrey a b => exact num _
  | fromGrey a b => exact num _
  | inc a b => exact num _
  | dec a b => exact num _
  | incSat a b =>
    simp only [exec, execIncSat]
    split
    · exact num _
    · exact ill
  | decSat a b =>
    simp only [exec, execDecSat]
    split
    · exact num _
    · exact ill
  | render a b =>
    exact ⟨_, s.draws, rfl, strResponse_wf _ _ (renderChars_length_le _ _) fun _ => renderChars_mem _ _⟩
  | addDelta a b =>
    simp only [exec, execAddDelta]
    split
    · split
      · exact num _
      · exact ⟨_, _, rfl, numResponse_wf _ _⟩
    · exact ill
  | reserved op a b => exact ill

/-- Serving the oldest accepted request gives a next state: a well-formed response stands on the ports, the
request's host holds it, and no other host's changes. -/
theorem serve_next {s : State} {q : HostRequest} {qs : List HostRequest} (h : s.accepted = q :: qs) :
    ∃ r n, serve s =
      .next ((((s.withAccepted qs).withDraws n).withResponse r).withHeld (hold q.host r s.held)) ∧
      r.WF s.cfg := by
  obtain ⟨r, n, hr, hw⟩ := exec_next (decodeRequest s.cfg q.req) (s.withAccepted qs)
  exact ⟨r, n, by rw [serve_cons h, hr, deliverTo_withResponse]; rfl, hw⟩

/-- A run peels off its first step. -/
theorem run_succ_of_next {s s' : State} (k : Nat) (h : step s = .next s') :
    core.run (k + 1) s = core.run k s' := by
  have h' : core.step s = .next s' := h
  simp only [Host.Core.run, h']

/-- The responses of a run peel off those of its first step. -/
theorem deliveries_succ_of_next {s s' : State} (k : Nat) (h : step s = .next s') :
    deliveries (k + 1) s =
      (s.servedHost.toList.filterMap fun h => (s'.heldBy h).map fun r => (h, r)) ++ deliveries k s' := by
  rw [deliveries, h]

/-- What the spec allows as an answer depends on the wires only, so the ports change nothing of it. -/
theorem answers_onPorts (c : Config) (q : Request) (r : Response) :
    Answers c (onPorts c q) r = Answers c q r := by
  simp only [Answers, onPorts, portValue_toWord]

/-- Whether a schedule is orderly depends on which hosts hold a response, not on how they are listed. -/
theorem orderlyFrom_congr {es : List Event} : ∀ {g g' w : List Nat}, (∀ h, h ∈ g ↔ h ∈ g') →
    orderlyFrom g w es = orderlyFrom g' w es := by
  induction es with
  | nil => simp [orderlyFrom]
  | cons e es ih =>
    intro g g' w hg
    cases e with
    | request h q => exact ih hg
    | serve =>
      cases w with
      | nil => exact ih hg
      | cons k w => exact ih fun h => by simp [hg]
    | read h f => simp only [orderlyFrom, List.contains_eq_mem, hg, ih hg]
    | reset => rfl
    | powerLoss => rfl

end Sys2Proof.Machine
end

