-- ==== Sys2Proof/Tests/Slice0.lean ====
section
/-! SUPPORT. The model's own tests. Expected results come from spec/95_test_vectors.md, or by hand from the rule
named. The last part gives, for the statements with hypotheses, values that meet them. -/

namespace Sys2Proof.Tests
open Sys2Proof Sys2Proof.Machine

/-! ### Helpers -/

/-- An instance with every feature. -/
def cfg (w : Width) (z : ZeroRender) : Config := ⟨w, true, true, z, Vector.replicate 16 0⟩

/-- An instance of W = 8 without the optional features. -/
def bare : Config := ⟨.w8, false, false, .empty, Vector.replicate 16 0⟩

/-- An instance after reset with requests of host 0 accepted. -/
def st (c : Config) (q : List Request) : State :=
  { State.resetOf c with accepted := q.map fun r => ⟨0, r⟩ }

/-- The same with events to come. -/
def stEv (c : Config) (q : List Request) (es : List Event) : State := { st c q with events := es }

/-- The response a next state holds. -/
def rspOf : Host.Outcome State Fault Refusal → Option Response
  | .next t => t.rsp
  | _ => none

/-- Its RESULT, with STATUS 0. -/
def resultOf (o : Host.Outcome State Fault Refusal) : Option Nat :=
  match rspOf o with
  | some r => if r.status = .ok then some r.result.toNat else none
  | none => none

/-- A W = 8 state after reset. -/
def s8 : State := st (cfg .w8 .empty) []

/-! ### WellFormed refuses: one ill-formed term for each check -/

theorem test_wf_operand_a_too_wide : Instr.wf (cfg .w8 .empty) (.inc 0x100 0) = false := by decide
theorem test_wf_operand_b_too_wide : Instr.wf (cfg .w16 .empty) (.addDelta 0 0x10000) = false := by decide
theorem test_wf_to_grey_too_wide : Instr.wf (cfg .w8 .empty) (.toGrey 0x100 0) = false := by decide
theorem test_wf_from_grey_too_wide : Instr.wf (cfg .w8 .empty) (.fromGrey 0 0x100) = false := by decide
theorem test_wf_dec_too_wide : Instr.wf (cfg .w32 .empty) (.dec 0x100000000 0) = false := by decide
theorem test_wf_render_too_wide : Instr.wf (cfg .w8 .empty) (.render 0x100 0) = false := by decide
theorem test_wf_inc_sat_absent : Instr.wf bare (.incSat 1 0) = false := by decide
theorem test_wf_dec_sat_absent : Instr.wf bare (.decSat 1 0) = false := by decide
theorem test_wf_add_delta_absent : Instr.wf bare (.addDelta 1 0) = false := by decide
theorem test_wf_reserved_defined_opcode : Instr.wf (cfg .w8 .empty) (.reserved 4 1 0) = false := by decide
theorem test_wf_reserved_absent_opcode : Instr.wf bare (.reserved 4 1 0) = true := by decide
theorem test_wf_w64_takes_every_word : Instr.wf (cfg .w64 .empty) (.inc 0xFFFFFFFFFFFFFFFF 0) = true := by
  decide

/-! ### Decoding: words written out from R61 and R64, one for each constructor -/

theorem test_decode_to_grey : decode (cfg .w8 .empty) 0b00000000_00001010_0000 = .ok (.toGrey 10 0) := by
  rfl
theorem test_decode_from_grey : decode (cfg .w8 .empty) 0b00000000_00001111_0001 = .ok (.fromGrey 15 0) := by
  rfl
theorem test_decode_inc : decode (cfg .w8 .empty) 0b11111111_00001111_0010 = .ok (.inc 0x0F 0xFF) := by rfl
theorem test_decode_dec : decode (cfg .w8 .empty) 0b00000000_10000000_0011 = .ok (.dec 0x80 0) := by rfl
theorem test_decode_inc_sat : decode (cfg .w8 .empty) 0b00000000_10000000_0100 = .ok (.incSat 0x80 0) := by
  rfl
theorem test_decode_inc_sat_absent : decode bare 0b00000000_10000000_0100 = .ok (.reserved 4 0x80 0) := by
  rfl
theorem test_decode_dec_sat : decode (cfg .w8 .empty) 0b00000001_00000000_0101 = .ok (.decSat 0 1) := by rfl
theorem test_decode_render : decode (cfg .w8 .empty) 0b00010010_00001110_0110 = .ok (.render 0x0E 0x12) := by
  rfl
theorem test_decode_add_delta : decode (cfg .w8 .empty) 0b11111101_00001011_0111 = .ok (.addDelta 0x0B 0xFD) :=
  by rfl
theorem test_decode_add_delta_absent : decode bare 0b00000011_00001111_0111 = .ok (.reserved 7 0x0F 3) := by
  rfl
theorem test_decode_reserved : decode (cfg .w8 .empty) 0b00000000_01010101_1000 = .ok (.reserved 8 0x55 0) :=
  by rfl
theorem test_decode_w64 : decode (cfg .w64 .empty) (0x0123456789ABCDEF <<< 68 ||| 0xFEDCBA9876543210 <<< 4 ||| 3)
    = .ok (.dec 0xFEDCBA9876543210 0x0123456789ABCDEF) := by rfl
theorem test_decode_too_long : decode (cfg .w8 .empty) 0x100000 = .error (.tooLong 0x100000) := by rfl
theorem test_encode_program_word : encode (cfg .w8 .empty) (.addDelta 0x0B 0xFD) = 0xFD0B7 := by decide
theorem test_decode_table_word : decodeTableWord 24 0x00802 = some (.inc 0x80 0) := by rfl
theorem test_fetch_word_runs : resultOf (step (State.reset.withFetchWord 24 0x00802)) = some 0 := by decide

/-! ### Instructions (spec/95_test_vectors.md sections 1 to 5) -/

theorem test_to_grey_S1 : resultOf (exec (.toGrey 10 0) s8) = some 0x0F := by decide
theorem test_to_grey_w64 : resultOf (exec (.toGrey 0x0123456789ABCDEF 0) (st (cfg .w64 .empty) [])) =
    some 0x01B2E7D44D7E2B18 := by decide
theorem test_from_grey_S2 : resultOf (exec (.fromGrey 15 0) s8) = some 0x0A := by decide
theorem test_from_grey_w16 : resultOf (exec (.fromGrey 0x1234 0) (st (cfg .w16 .empty) [])) =
    some 0x1C27 := by decide
theorem test_inc_flips_above_lowest : resultOf (exec (.inc 0x0E 0xFF) s8) = some 0x0A := by decide
theorem test_inc_wraps : resultOf (exec (.inc 0x80 0) s8) = some 0x00 := by decide
theorem test_dec_flips_above_lowest : resultOf (exec (.dec 0x0F 0) s8) = some 0x0D := by decide
theorem test_dec_wraps : resultOf (exec (.dec 0x00 0) (st (cfg .w16 .empty) [])) = some 0x8000 := by decide
theorem test_inc_sat_stays : resultOf (exec (.incSat 0x80 0) s8) = some 0x80 := by decide
theorem test_inc_sat_absent : rspOf (exec (.incSat 0x80 0) (st bare [])) = some (illegalAnswer bare) := by
  decide
theorem test_dec_sat_stays : resultOf (exec (.decSat 0x00 0) s8) = some 0x00 := by decide
theorem test_dec_sat_steps : resultOf (exec (.decSat 0x80 0) s8) = some 0x81 := by decide
theorem test_render_S4 : rspOf (exec (.render 0x0E 0x12) s8) =
    some ⟨.ok, 0, 4, [0x31, 0x31, 0x31, 0x30, 0, 0, 0, 0]⟩ := by decide
theorem test_render_zero_digit : rspOf (exec (.render 0 0) (st (cfg .w8 .digit) [])) =
    some ⟨.ok, 0, 1, [0x30, 0, 0, 0, 0, 0, 0, 0]⟩ := by decide
theorem test_add_delta_negative : resultOf (exec (.addDelta 0x0F 0xFD) s8) = some 0x04 := by decide
theorem test_add_delta_most_negative : resultOf (exec (.addDelta 0xC0 0x80) s8) = some 0x00 := by decide
theorem test_reserved_opcode : rspOf (exec (.reserved 0xF 0xFF 0xFF) s8) =
    some ⟨.illegal, 0, 0, [0, 0, 0, 0, 0, 0, 0, 0]⟩ := by decide
theorem test_reserved_add_delta_absent : rspOf (exec (.addDelta 0x0F 3) (st bare [])) =
    some (illegalAnswer bare) := by decide

/-! ### Shared functions, by the rules named -/

/-- R104: the shifts for W = 8 and W = 64. -/
theorem test_fold_shifts : foldShifts 8 4 = [4, 2, 1] ∧ foldShifts 64 32 = [32, 16, 8, 4, 2, 1] := by decide
/-- R19: MAXG. -/
theorem test_maxg : maxg 8 = 0x80#8 ∧ maxg 64 = 0x8000000000000000#64 := by decide
/-- R17: sext. -/
theorem test_sext : sext 0x80#8 = -128 ∧ sext 0x7F#8 = 127 ∧ sext 0xFF#8 = -1 := by decide
/-- R62 with W = 8: "1" is STR_LEN 1 at bits [15:9] and STR[0] = 0x31 at [23:16]. -/
theorem test_pack_response : packResponse (cfg .w8 .empty) (strResponse (cfg .w8 .empty) [0x31]) = 0x310200 := by
  decide
/-- R68: the assembler's text. -/
theorem test_assemble_text : assembleText (cfg .w8 .empty)
    ['A', 'D', 'D', '_', 'D', 'E', 'L', 'T', 'A', ' ', '0', 'x', '0', 'B', ',', ' ', '-', '3', ';', 'x'] =
    .ok (some ⟨7, 0x0B, 0xFD⟩) := by rfl
theorem test_assemble_raw : assembleText (cfg .w8 .empty)
    ['.', 'o', 'p', ' ', '0', 'x', '8', ',', '0', 'b', '1', '0', '1', ',', '7'] = .ok (some ⟨8, 5, 7⟩) := by rfl
theorem test_assemble_out_of_range : assembleText (cfg .w8 .empty) ['I', 'N', 'C', ' ', '2', '5', '6'] =
    .error .outOfRange := by rfl
/-- R28: a premature read. -/
theorem test_premature_read : step (stEv (cfg .w8 .empty) [] [.read 0 .result]) = .fault .noResponse := by rfl
/-- R241: reset drops what is accepted. -/
theorem test_reset_drops : step (stEv (cfg .w8 .empty) [⟨0, 1, 0⟩] [.reset]) = .next s8 := by rfl
/-- R27, R240: with nothing to do the block stays ready. -/
theorem test_reset_state_idles : step State.reset = .next State.reset := by rfl

/-! ### Witnesses: states and operands that meet the hypotheses of the statements -/

/-- W = 8 with every feature. -/
def c8 : Config := cfg .w8 .empty

theorem witness_EveryOpcodeSelectsItsRow : 8 ≤ (0x8#4).toNat ∧ 8 ≤ (0xF#4).toNat := by decide
theorem witness_PackedRequestHoldsItsFields : Instr.wf c8 (.addDelta 0xFF 0xFF) = true := by decide
theorem witness_PackedResponseHoldsItsFields : (strResponse c8 [0x31, 0x30]).WF c8 ∧
    (illegalResponse c8).WF c8 ∧ (numResponse c8 0xFF).WF c8 := ⟨by decide, by decide, by decide⟩
theorem witness_DecodeOfEncodeIsIdentity : Instr.wf (cfg .w64 .digit) (.inc 0xFFFFFFFFFFFFFFFF 0) = true ∧
    Instr.wf bare (.reserved 7 0xFF 0) = true := by decide
theorem witness_EveryRequestWordIsDecoded : 0xFFFFF < 2 ^ (2 * c8.W + 4) ∧ 2 ^ (2 * c8.W + 4) ≤ 0x100000 := by
  decide
theorem witness_AssembledLines_in_range :
    255 < 2 ^ c8.W ∧ -(2 ^ (c8.W - 1)) ≤ (-128 : Int) ∧ (-128 : Int) < 2 ^ (c8.W - 1) ∧
    (127 : Int) < 2 ^ (c8.W - 1) := by decide
theorem witness_AssembledLines_out_of_range :
    2 ^ c8.W ≤ 256 ∧ (-129 : Int) < -(2 ^ (c8.W - 1)) ∧ 2 ^ (c8.W - 1) ≤ (128 : Int) := by decide
theorem witness_AssembledLines_unary :
    (AsmLine.render 255, 0x6#4) ∈ [(AsmLine.toGrey 255, 0x0#4), (.fromGrey 255, 0x1), (.inc 255, 0x2),
      (.dec 255, 0x3), (.incSat 255, 0x4), (.decSat 255, 0x5), (.render 255, 0x6)] := by decide
theorem witness_AssembledLines_raw : 15 < 16 ∧ 16 ≤ 16 ∧ 255 < 2 ^ c8.W ∧ 2 ^ c8.W ≤ 256 ∧
    assemble c8 (.raw 15 255 255) = .ok ⟨15, 255, 255⟩ := ⟨by decide, by decide, by decide, by decide, rfl⟩
theorem witness_OnlyLegalWidthsAreBuilt :
    (64 = 8 ∨ 64 = 16 ∨ 64 = 32 ∨ 64 = 64) ∧ ¬ (9 = 8 ∨ 9 = 16 ∨ 9 = 32 ∨ 9 = 64) := by decide
theorem witness_ConsecutiveCodesDifferInOneBit : (0xFE : BitVec c8.W).toNat < 2 ^ c8.W - 1 := by decide
theorem witness_FoldEqualsPrefixXor : 4 ∈ foldShifts c8.W (c8.W / 2) := by decide
theorem witness_StepAgreesWithTheTransform :
    (0x81 : BitVec c8.W) ≠ maxg c8.W ∧ (0x01 : BitVec c8.W) ≠ 0 := by decide
theorem witness_StepSaturatesAndElseFlipsOneBit :
    ¬ ((0x80 : BitVec c8.W) = maxg c8.W ∧ Direction.decrement = .increment) ∧
    ¬ ((0x80 : BitVec c8.W) = 0 ∧ Direction.decrement = .decrement) := by decide
/-- For INC, DEC, INC_SAT, DEC_SAT and the one-bit rule: A on the boundary, with container bits above W set, and
A off it. -/
theorem witness_step_operands :
    (0x180 : Word).setWidth s8.W = maxg s8.W ∧ (0x100 : Word).setWidth s8.W = 0 ∧
    (0x101 : Word).setWidth s8.W = 1 ∧ (0x01 : Word).setWidth s8.W ≠ maxg s8.W ∧
    (0x01 : Word).setWidth s8.W ≠ 0 ∧ s8.cfg.hasSat = true ∧ (st bare []).cfg.hasSat = false := by decide
theorem witness_WrappingPairIsModularArithmetic :
    (0x00 : BitVec c8.W) ≠ maxg c8.W ∧ (0x80 : BitVec c8.W) ≠ 0 := by decide
theorem witness_RenderRoundTripsExceptAtZero :
    (0x80 : Word).setWidth s8.W ≠ 0 ∧ (0 : Word).setWidth s8.W = 0 ∧ s8.cfg.zeroRender = .empty ∧
    (st (cfg .w8 .digit) []).cfg.zeroRender = .digit := by decide
theorem witness_AddDeltaAnswersTheSum : s8.cfg.hasAdd = true ∧ (st bare []).cfg.hasAdd = false ∧
    0 ≤ ((fromGrey ((0xC0 : Word).setWidth s8.W)).toNat : Int) + ((0x80 : Word).setWidth s8.W).toInt ∧
    ((fromGrey ((0x81 : Word).setWidth s8.W)).toNat : Int) + ((0x01 : Word).setWidth s8.W).toInt
      ≤ 2 ^ s8.W - 1 := by decide
theorem witness_AddDeltaOutOfRangeStillAnswers :
    ((fromGrey ((0x40 : Word).setWidth s8.W)).toNat : Int) + ((0x80 : Word).setWidth s8.W).toInt < 0 ∧
    2 ^ s8.W ≤ ((fromGrey ((0x80 : Word).setWidth s8.W)).toNat : Int) + ((0x01 : Word).setWidth s8.W).toInt := by
  decide
theorem witness_AddDeltaAgreesWithStepperInRange :
    ((0x01 : Word).setWidth s8.W).toInt = 1 ∧ ((0xFF : Word).setWidth s8.W).toInt = -1 ∧
    (0x0F : Word).setWidth s8.W ≠ maxg s8.W ∧ (0x80 : Word).setWidth s8.W = maxg s8.W ∧
    (0x0F : Word).setWidth s8.W ≠ 0 ∧ (0x00 : Word).setWidth s8.W = 0 ∧ s8.cfg.hasAdd = true ∧
    s8.cfg.hasSat = true := by decide
theorem witness_ReservedEncodingsGetIllegal_always : (st c8 [⟨8, 0x55, 0⟩]).blockTurn = true ∧
    (st c8 [⟨8, 0x55, 0⟩]).accepted = [⟨0, ⟨8, 0x55, 0⟩⟩] ∧ 8 ≤ (8#4).toNat := by decide
theorem witness_ReservedEncodingsGetIllegal_absent : (stEv bare [⟨5, 0, 0⟩] [.serve]).blockTurn = true ∧
    bare.hasSat = false ∧ bare.hasAdd = false := by decide
theorem witness_IllegalRequestLeavesNoTrace : (st c8 [⟨8, 0x55, 0⟩, ⟨2, 0x0F, 0xFF⟩]).events = [] ∧
    (st c8 [⟨8, 0x55, 0⟩, ⟨2, 0x0F, 0xFF⟩]).accepted = [⟨0, ⟨8, 0x55, 0⟩⟩, ⟨0, ⟨2, 0x0F, 0xFF⟩⟩] ∧
    c8.isReserved 8 = true := by decide
/-- The case of two hosts: host 1's illegal request stands before host 0's. -/
theorem witness_IllegalRequestLeavesNoTrace_hosts :
    let s : State := { st c8 [] with accepted := [⟨1, ⟨8, 0x55, 0⟩⟩, ⟨0, ⟨2, 0x0F, 0xFF⟩⟩] }
    s.events = [] ∧ s.cfg.isReserved 8 = true ∧ (0 : Nat) ≠ 1 := by decide
theorem witness_OperandBIsIgnored : (0x6 : BitVec 4) ≠ 0x7 := by decide
theorem witness_ResponseDependsOnItsRequestOnly :
    s8.cfg = (stEv c8 [⟨0, 1, 0⟩] [.reset]).cfg ∧ s8 ≠ stEv c8 [⟨0, 1, 0⟩] [.reset] ∧
    0 ≤ ((fromGrey ((0x0F : Word).setWidth s8.W)).toNat : Int) + ((0x03 : Word).setWidth s8.W).toInt ∧
    ((fromGrey ((0x0F : Word).setWidth s8.W)).toNat : Int) + ((0x03 : Word).setWidth s8.W).toInt
      ≤ 2 ^ s8.W - 1 := by decide
/-- For the two statements about serving, and with `serve` in the schedule. -/
theorem witness_block_turn : (st c8 [⟨2, 0x0F, 0⟩]).blockTurn = true ∧
    (stEv c8 [⟨2, 0x0F, 0⟩] [.serve, .reset]).blockTurn = true ∧
    (stEv c8 [⟨2, 0x0F, 0⟩] [.serve, .reset]).accepted = [⟨0, ⟨2, 0x0F, 0⟩⟩] := by decide
theorem witness_StepRunsTheDecodedRequest_word :
    decode State.reset.cfg (0x030F7 % 2 ^ 24) = .ok (.addDelta 0x0F 3) := by rfl
theorem witness_ResponsesLeaveInAcceptanceOrder : (st c8 [⟨0, 10, 0⟩, ⟨1, 15, 0⟩]).events = [] ∧
    2 ≤ (st c8 [⟨0, 10, 0⟩, ⟨1, 15, 0⟩]).accepted.length ∧
    (st c8 [⟨0, 10, 0⟩, ⟨1, 15, 0⟩]).accepted[2 - 1]? = some ⟨0, ⟨1, 15, 0⟩⟩ := by decide
/-- A schedule with a read right after the first answer, and one whose read comes too early. -/
theorem witness_EveryAcceptedRequestIsAnswered :
    (stEv c8 [⟨0, 10, 0⟩] [.serve, .read 0 .result, .request 0 ⟨1, 15, 0⟩]).orderly = true ∧
    (stEv c8 [⟨0, 10, 0⟩] [.serve, .read 0 .result, .request 0 ⟨1, 15, 0⟩]).awaited =
      [⟨0, ⟨0, 10, 0⟩⟩, ⟨0, ⟨1, 15, 0⟩⟩] ∧
    (stEv c8 [⟨0, 10, 0⟩] [.read 0 .result, .serve]).orderly = false := by decide
/-- S1 and S2 of spec/95_test_vectors.md: the two responses of that schedule, one for each request. -/
theorem test_deliveries_in_order :
    (deliveries 4 (stEv c8 [⟨0, 10, 0⟩] [.serve, .read 0 .result, .request 0 ⟨1, 15, 0⟩])).map (fun d => (d.1, d.2.result)) =
      [(0, 0x0F), (0, 0x0A)] := by decide
theorem witness_NoResponseWithoutARequest :
    ((stEv c8 [] [.serve]).blockTurn = true → (stEv c8 [] [.serve]).accepted = []) ∧
    (stEv c8 [] [.serve]).blockTurn = true ∧ step (stEv c8 [] [.serve]) = .next s8 := ⟨fun _ => rfl, rfl, rfl⟩
theorem witness_PresentedRequestIsAccepted :
    (stEv c8 [] [.request 0 ⟨2, 0xFF, 0xFF⟩]).events = [.request 0 ⟨2, 0xFF, 0xFF⟩] ∧
    Request.wf c8 ⟨2, 0xFF, 0xFF⟩ = true := by decide
/-- Host 0 holds a response, host 1 does not. -/
def held0 : State := { stEv c8 [] [.read 1 .str] with rsp := some (illegalAnswer c8), held := [(0, illegalAnswer c8)] }
theorem witness_ReadFaultsOnlyBeforeAResponse :
    held0.heldBy 1 = none ∧ held0.heldBy 0 = some (illegalAnswer c8) := by decide
/-- Two hosts, each with a request: host 1's is served first. -/
def two : State := { stEv c8 [] [.serve, .read 1 .result] with
  accepted := [⟨1, ⟨0, 10, 0⟩⟩, ⟨0, ⟨1, 15, 0⟩⟩] }
theorem witness_HostsShareNothing : two.blockTurn = true ∧
    two.accepted = [⟨1, ⟨0, 10, 0⟩⟩, ⟨0, ⟨1, 15, 0⟩⟩] ∧ (0 : Nat) ≠ 1 ∧ two.heldBy 0 = none ∧
    (0x0 : BitVec 4) ≠ 0x7 := by decide
theorem witness_HostReadsItsOwnResponseOnly : (match step two with
    | .next t => t.heldBy 1 == some (numResponse c8 0x0F) && t.heldBy 0 == none
    | _ => false) = true := by decide
/-- R28, R211: after host 1's answer, host 1 may read and host 0 may not. -/
theorem test_read_by_another_host_faults :
    (match core.run 1 two with
      | .next t => (readField t 1 .result, readField t 0 .result)
      | _ => (.error .noResponse, .ok (.result 0))) = (.ok (.result 0x0F), .error .noResponse) := by rfl
theorem witness_ResetDropsAcceptedRequests :
    (stEv c8 [⟨0, 10, 0⟩] [.reset, .serve]).events = [.reset, .serve] := by decide
theorem witness_PowerLossActsAsReset :
    (stEv c8 [⟨0, 10, 0⟩] [.powerLoss, .serve]).events = [.powerLoss, .serve] := by decide
theorem witness_FirstRequestAfterResetIsAnswered : Request.wf (cfg .w16 .digit) ⟨6, 0xFFFF, 0⟩ = true := by
  decide
theorem witness_ParametersNeverChange : step (stEv c8 [⟨0, 10, 0⟩] [.reset]) = .next s8 := by rfl
theorem witness_StepStopsOnlyOnPrematureReads : (st c8 [⟨7, 0x80, 1⟩]).prematureRead = false ∧
    (stEv c8 [] [.read 0 .result]).prematureRead = true := by decide
theorem witness_StepKeepsResponsesWellFormed : (st c8 [⟨0, 0xFF, 0xFF⟩]).Inv ∧
    (((st c8 []).withResponse (strResponse c8 [0x31])).withHeld [(3, strResponse c8 [0x31])]).Inv := by
  refine ⟨⟨by decide, by simp [st], by simp [st], by simp [st], by simp [st]⟩, by simp [st], ?_, ?_, ?_, ?_⟩
  · intro r hr
    rw [State.withHeld_rsp, State.withResponse_rsp, Option.mem_def, Option.some.injEq] at hr
    exact hr ▸ (by decide : (strResponse c8 [0x31]).WF c8)
  · intro p hp
    rw [State.withHeld_held, List.mem_singleton] at hp
    subst hp
    exact (by decide : (strResponse c8 [0x31]).WF c8)
  · simp
  · simp
theorem witness_StepKeepsResponsesWellFormed_step :
    step (st c8 [⟨8, 0xFF, 0xFF⟩]) =
      .next ((s8.withResponse (illegalResponse c8)).withHeld [(0, illegalResponse c8)]) := by rfl

end Sys2Proof.Tests
end

/-! ### Proofs of the state family (spec/10_state.md) -/

section
/-! What one instruction does: a response that its operands and the parameters fix, or a draw. -/

namespace Sys2Proof.Machine

/-- `sext` is the two's-complement reading of a word (R17). -/
theorem sext_eq_toInt {n : Nat} (v : BitVec n) : sext v = v.toInt := by
  rw [sext, BitVec.toInt_eq_msb_cond, BitVec.msb_eq_getLsbD_last]
  push_cast
  rfl

theorem deltaSum_eq {n : Nat} (a b : BitVec n) : deltaSum a b = ((fromGrey a).toNat : Int) + b.toInt := by
  rw [deltaSum, sext_eq_toInt]

theorem deltaInRange_iff {n : Nat} (a b : BitVec n) :
    deltaInRange a b = true ↔ 0 ≤ ((fromGrey a).toNat : Int) + b.toInt ∧
      ((fromGrey a).toNat : Int) + b.toInt ≤ 2 ^ n - 1 := by
  rw [deltaInRange, decide_eq_true_eq, deltaSum_eq]

/-- The instruction draws its RESULT: a present ADD_DELTA with its sum out of range (R171). -/
def drawsResult (c : Config) : Instr → Bool
  | .addDelta a b => c.hasAdd && !deltaInRange (portValue c a) (portValue c b)
  | _ => false

theorem drawsResult_eq_true_iff {c : Config} {i : Instr} :
    drawsResult c i = true ↔ ∃ a b, i = .addDelta a b ∧ c.hasAdd = true ∧
      (((fromGrey (portValue c a)).toNat : Int) + (portValue c b).toInt < 0 ∨
        2 ^ c.W ≤ ((fromGrey (portValue c a)).toNat : Int) + (portValue c b).toInt) := by
  cases i
  case addDelta a b =>
    simp only [drawsResult, Bool.and_eq_true, Bool.not_eq_true', Instr.addDelta.injEq, ← Bool.not_eq_true,
      deltaInRange_iff]
    constructor
    · rintro ⟨ha, hr⟩
      exact ⟨a, b, ⟨rfl, rfl⟩, ha, by omega⟩
    · rintro ⟨_, _, ⟨rfl, rfl⟩, ha, hr⟩
      exact ⟨ha, by omega⟩
  all_goals simp [drawsResult]

/-- The response of an instruction that draws nothing. It is a function of the parameters and the operands alone
(R21, R48). -/
def response (c : Config) : Instr → Response
  | .toGrey a _ => numResponse c (toGrey (portValue c a))
  | .fromGrey a _ => numResponse c (fromGrey (portValue c a))
  | .inc a _ => numResponse c (incWrap (portValue c a))
  | .dec a _ => numResponse c (decWrap (portValue c a))
  | .incSat a _ => if c.hasSat then numResponse c (incSaturate (portValue c a)) else illegalResponse c
  | .decSat a _ => if c.hasSat then numResponse c (decSaturate (portValue c a)) else illegalResponse c
  | .render a _ => strResponse c (renderChars c (portValue c a))
  | .addDelta a b =>
    if c.hasAdd then numResponse c (deltaResult (portValue c a) (portValue c b)) else illegalResponse c
  | .reserved _ _ _ => illegalResponse c

/-- An instruction that draws nothing delivers its response and changes nothing else. -/
theorem exec_of_not_drawsResult {i : Instr} {s : State} (h : drawsResult s.cfg i = false) :
    exec i s = .next (s.withResponse (response s.cfg i)) := by
  cases i with
  | toGrey a b => rfl
  | fromGrey a b => rfl
  | inc a b => rfl
  | dec a b => rfl
  | incSat a b =>
    simp only [exec, execIncSat, response]
    split <;> rfl
  | decSat a b =>
    simp only [exec, execDecSat, response]
    split <;> rfl
  | render a b => rfl
  | addDelta a b =>
    simp only [exec, execAddDelta, response]
    split
    · rename_i ha
      have hr : deltaInRange (portValue s.cfg a) (portValue s.cfg b) = true := by
        simpa [drawsResult, ha] using h
      rw [if_pos hr, respondNum]
    · rfl
  | reserved op a b => rfl

/-- A draw delivers a numeric response, counts the draw, and changes nothing else (R171; log 2). -/
theorem exec_of_drawsResult {i : Instr} {s : State} (h : drawsResult s.cfg i = true) :
    ∃ v, exec i s = .next ((s.withDraws (s.draws + 1)).withResponse (numResponse s.cfg v)) := by
  cases i
  case addDelta a b =>
    obtain ⟨ha, hr⟩ := Bool.and_eq_true_iff.mp h
    rw [exec, execAddDelta, if_pos ha, if_neg (by simpa using hr)]
    exact respondDraw_next s _ _
  all_goals cases h

/-- The rows of the opcode table (R64). -/
theorem opcode_cases : ∀ op : BitVec 4, op = 0 ∨ op = 1 ∨ op = 2 ∨ op = 3 ∨ op = 4 ∨ op = 5 ∨ op = 6 ∨
    op = 7 ∨ 8 ≤ op.toNat := by decide

/-- OP values from 0x8 on select the reserved row, whatever the parameters (R66). -/
theorem decodeRequest_of_eight_le {c : Config} {op : BitVec 4} {a b : Word} (h : 8 ≤ op.toNat) :
    decodeRequest c ⟨op, a, b⟩ = .reserved op a b :=
  decodeRequest_of_isReserved (by simp [Config.isReserved, h])

/-- The requests that draw their RESULT: ADD_DELTA, present, with its sum out of range (R171). -/
theorem drawsResult_decodeRequest_eq_true_iff {c : Config} {q : Request} :
    drawsResult c (decodeRequest c q) = true ↔ q.op = 0x7 ∧ c.hasAdd = true ∧
      ¬ (0 ≤ ((fromGrey (portValue c q.a)).toNat : Int) + (portValue c q.b).toInt ∧
        ((fromGrey (portValue c q.a)).toNat : Int) + (portValue c q.b).toInt ≤ 2 ^ c.W - 1) := by
  obtain ⟨op, a, b⟩ := q
  rcases opcode_cases op with rfl | rfl | rfl | rfl | rfl | rfl | rfl | rfl | h8
  on_goal 9 =>
    rw [decodeRequest_of_eight_le h8]
    refine iff_of_false Bool.false_ne_true ?_
    rintro ⟨rfl, -⟩
    exact absurd h8 (by decide)
  on_goal 8 =>
    rw [← deltaInRange_iff]
    cases ha : c.hasAdd <;> simp [decodeRequest, drawsResult, ha]
  all_goals cases hs : c.hasSat <;> simp [decodeRequest, drawsResult, hs]

end Sys2Proof.Machine
end

section
/-! What a step does at each event, and the invariant of every operation. -/

namespace Sys2Proof.Machine

/-- At the block's turn a step serves, with the event taken off if there is one (log 4). -/
theorem step_of_blockTurn {s : State} (h : s.blockTurn = true) :
    step s = serve (s.withEvents s.events.tail) := by
  obtain ⟨c, es, qs, r, l, n⟩ := s
  cases es with
  | nil => rfl
  | cons e es =>
    cases e with
    | serve => rfl
    | request k q => cases h
    | read k f => cases h
    | reset => cases h
    | powerLoss => cases h

theorem step_of_request {s : State} {h : Nat} {q : Request} {es : List Event}
    (he : s.events = .request h q :: es) : step s = acceptRequest (s.withEvents es) h q := by
  rw [step, takeEvent, he]

theorem step_of_read {s : State} {h : Nat} {f : RspField} {es : List Event}
    (he : s.events = .read h f :: es) : step s = hostRead (s.withEvents es) h f := by
  rw [step, takeEvent, he]

theorem step_of_reset {s : State} {es : List Event} (he : s.events = .reset :: es) :
    step s = applyReset (s.withEvents es) := by
  rw [step, takeEvent, he]

theorem step_of_powerLoss {s : State} {es : List Event} (he : s.events = .powerLoss :: es) :
    step s = applyReset (s.withEvents es) := by
  simp only [step, takeEvent, he, applyPowerLoss]

/-- A read gives a next state only to a host that holds a response, and changes nothing (R28, R45). -/
theorem hostRead_eq_next {s t : State} {h : Nat} {f : RspField} :
    hostRead s h f = .next t ↔ (s.heldBy h).isSome = true ∧ t = s := by
  rw [hostRead_eq]
  split
  · rename_i hsome
    simp [hsome, eq_comm]
  · rename_i hnone
    simp [hnone]

/-- What a step that gives a next state can do: the block's turn serves, and any other event is a request
accepted, a read by a host that holds a response, or a reset. -/
theorem step_cases {s t : State} (h : step s = .next t) :
    (s.blockTurn = true ∧ serve (s.withEvents s.events.tail) = .next t) ∨
    (s.blockTurn = false ∧ ∃ e es, s.events = e :: es ∧
      ((∃ k q, e = .request k q ∧ acceptRequest (s.withEvents es) k q = .next t) ∨
       (∃ k f, e = .read k f ∧ (s.heldBy k).isSome = true ∧ t = s.withEvents es) ∨
       ((e = .reset ∨ e = .powerLoss) ∧ applyReset (s.withEvents es) = .next t))) := by
  cases hs : s.blockTurn with
  | true => exact .inl ⟨rfl, step_of_blockTurn hs ▸ h⟩
  | false =>
    refine .inr ⟨rfl, ?_⟩
    cases he : s.events with
    | nil => simp [State.blockTurn, he] at hs
    | cons e es =>
      refine ⟨e, es, rfl, ?_⟩
      cases e with
      | serve => simp [State.blockTurn, he] at hs
      | request k q => exact .inl ⟨k, q, rfl, step_of_request he ▸ h⟩
      | read k f => exact .inr (.inl ⟨k, f, rfl, hostRead_eq_next.mp (step_of_read he ▸ h)⟩)
      | reset => exact .inr (.inr ⟨.inl rfl, step_of_reset he ▸ h⟩)
      | powerLoss => exact .inr (.inr ⟨.inr rfl, step_of_powerLoss he ▸ h⟩)

/-- The invariant does not speak of the schedule. -/
theorem inv_withEvents {s : State} (es : List Event) (hs : s.Inv) : (s.withEvents es).Inv := hs

/-- Accepting a request keeps the invariant: the ports carry W bits of what is presented (R25). -/
theorem acceptRequest_inv {s t : State} {h : Nat} {q : Request} (hs : s.Inv)
    (ht : acceptRequest s h q = .next t) : t.Inv := by
  obtain rfl := acceptRequest_eq_next.mp ht
  obtain ⟨hacc, hrest⟩ := hs
  refine ⟨fun p hp => ?_, hrest⟩
  rcases List.mem_append.mp hp with hp | hp
  · exact hacc p hp
  · obtain rfl := List.mem_singleton.mp hp
    exact onPorts_wf s.cfg q

/-- Serving keeps the invariant: the response is well formed, and it goes into the held ones at its host's
place (R26, R28). -/
theorem serve_inv {s t : State} (hs : s.Inv) (ht : serve s = .next t) : t.Inv := by
  cases hq : s.accepted with
  | nil =>
    rw [serve_nil hq, Host.Outcome.next.injEq] at ht
    exact ht ▸ hs
  | cons q qs =>
    obtain ⟨r, n, hserve, hr⟩ := serve_next hq
    rw [hserve, Host.Outcome.next.injEq] at ht
    subst ht
    obtain ⟨hacc, -, hheld, hsorted, -⟩ := hs
    refine ⟨fun p hp => hacc p (hq ▸ List.mem_cons_of_mem q hp), ?_, fun p hp => ?_,
      hold_sorted _ _ hsorted, ?_⟩
    · rintro r' ⟨⟩
      exact hr
    · rcases mem_hold hp with rfl | hp
      · exact hr
      · exact hheld p hp
    · rintro ⟨⟩

/-- A state with nothing accepted and no response meets the invariant (R30). -/
theorem inv_of_empty {s : State} (hacc : s.accepted = []) (hrsp : s.rsp = none) (hheld : s.held = []) :
    s.Inv := by
  simp [State.Inv, hacc, hrsp, hheld]

theorem applyReset_inv {s t : State} (ht : applyReset s = .next t) : t.Inv := by
  obtain ⟨-, -, hacc, hrsp, hheld, -⟩ := applyReset_eq_next.mp ht
  exact inv_of_empty hacc hrsp hheld

/-- The invariant holds after every step. -/
theorem step_inv {s t : State} (hs : s.Inv) (h : step s = .next t) : t.Inv := by
  rcases step_cases h with ⟨-, ht⟩ | ⟨-, e, es, -, ⟨k, q, -, ht⟩ | ⟨k, f, -, -, rfl⟩ | ⟨-, ht⟩⟩
  · exact serve_inv (inv_withEvents _ hs) ht
  · exact acceptRequest_inv (inv_withEvents es hs) ht
  · exact inv_withEvents es hs
  · exact applyReset_inv ht

/-- A container that W wires can carry comes through them unchanged. -/
theorem toWord_portValue {c : Config} {x : Word} (h : c.fits x = true) : toWord (portValue c x) = x := by
  have hx : x.toNat < 2 ^ c.W := of_decide_eq_true h
  apply BitVec.eq_of_toNat_eq
  rw [toNat_toWord, portValue, BitVec.toNat_setWidth, Nat.mod_eq_of_lt hx]

/-- The ports carry a well-formed request unchanged (R25). -/
theorem onPorts_eq_self {c : Config} {q : Request} (h : q.wf c = true) : onPorts c q = q := by
  obtain ⟨ha, hb⟩ := Bool.and_eq_true_iff.mp h
  rw [onPorts, toWord_portValue ha, toWord_portValue hb]

/-- The block's turn with a request accepted is `exec` of its instruction, delivered to its host. -/
theorem step_serves {s : State} {q : HostRequest} {qs : List HostRequest} (hs : s.blockTurn = true)
    (hq : s.accepted = q :: qs) :
    ∃ t r, exec (decodeRequest s.cfg q.req) { s with events := s.events.tail, accepted := qs } = .next t ∧
      t.rsp = some r ∧ step s = .next { t with held := hold q.host r t.held } := by
  obtain ⟨r, n, hexec, -⟩ :=
    exec_next (decodeRequest s.cfg q.req) ((s.withEvents s.events.tail).withAccepted qs)
  refine ⟨_, r, hexec, rfl, ?_⟩
  have hq' : (s.withEvents s.events.tail).accepted = q :: qs := hq
  rw [step_of_blockTurn hs, serve_cons hq', State.withEvents_cfg, hexec, deliverTo_withResponse]
  rfl

end Sys2Proof.Machine
end

section
/-! The obligations of the family, but the order of responses. -/

namespace Sys2Proof.Machine

/-- Settles O48: the step lemma of the invariant, by what each operation keeps. -/
theorem stepKeepsResponsesWellFormed : Obligations.StepKeepsResponsesWellFormed :=
  fun _ _ hs h => step_inv hs h

/-- Settles O34: `response` reads the parameters and the operands only. -/
theorem responseDependsOnItsRequestOnly : Obligations.ResponseDependsOnItsRequestOnly := by
  intro s s' q hc hq
  have hd : drawsResult s.cfg (decodeRequest s.cfg q) = false := by
    rw [← Bool.not_eq_true, drawsResult_decodeRequest_eq_true_iff]
    exact fun ⟨hop, ha, hr⟩ => hr (hq hop ha)
  refine ⟨response s.cfg (decodeRequest s.cfg q), exec_of_not_drawsResult hd, ?_⟩
  rw [hc] at hd ⊢
  exact exec_of_not_drawsResult hd

/-- Settles O35: an instruction draws its RESULT, or its response is `response`. -/
theorem instructionsChangeOnlyTheResponse : Obligations.InstructionsChangeOnlyTheResponse := by
  intro i s
  cases hd : drawsResult s.cfg i with
  | true =>
    obtain ⟨v, hv⟩ := exec_of_drawsResult hd
    exact ⟨_, _, hv, fun _ => drawsResult_eq_true_iff.mp hd⟩
  | false => exact ⟨_, s.draws, exec_of_not_drawsResult hd, fun hn => absurd rfl hn⟩

/-- Settles O40: of what a step can do, only serving an accepted request delivers a response. -/
theorem noResponseWithoutARequest : Obligations.NoResponseWithoutARequest := by
  intro s t hidle h
  rcases step_cases h with ⟨hs, ht⟩ | ⟨hs, e, es, -, ht⟩
  · have hacc : (s.withEvents s.events.tail).accepted = [] := hidle hs
    rw [serve_nil hacc, Host.Outcome.next.injEq] at ht
    subst ht
    exact ⟨.inl ⟨rfl, rfl⟩, fun _ => rfl⟩
  · refine ⟨?_, fun hs' => absurd (hs.symm.trans hs') Bool.false_ne_true⟩
    rcases ht with ⟨k, q, -, ht⟩ | ⟨k, f, -, -, rfl⟩ | ⟨-, ht⟩
    · obtain rfl := acceptRequest_eq_next.mp ht
      exact .inl ⟨rfl, rfl⟩
    · exact .inl ⟨rfl, rfl⟩
    · obtain ⟨-, -, -, hrsp, hheld, -⟩ := applyReset_eq_next.mp ht
      exact .inr ⟨hrsp, hheld⟩

/-- Settles O36: a placed word is served as any oldest request is, and unpacks to what `decode` decodes. -/
theorem stepRunsTheDecodedRequest : Obligations.StepRunsTheDecodedRequest := by
  refine ⟨fun s q qs => step_serves, fun s i nbits w hi => ?_⟩
  obtain ⟨t, r, hexec, hr, hstep⟩ := step_serves (s := s.withFetchWord nbits w) rfl rfl
  have hdec : decodeRequest s.cfg (unpackRequest s.cfg (w % 2 ^ nbits)) = i := by
    rw [decode] at hi
    split at hi
    · exact Except.ok.inj hi
    · cases hi
  exact ⟨t, r, hdec ▸ hexec, hr, hstep⟩

/-- Settles O41: what is accepted is what the ports carry of the request presented. -/
theorem presentedRequestIsAccepted : Obligations.PresentedRequestIsAccepted := by
  intro s h q es he
  exact ⟨onPorts s.cfg q, step_of_request he, onPorts_wf s.cfg q, rfl, portValue_toWord s.cfg _,
    portValue_toWord s.cfg _, onPorts_eq_self⟩

/-- Settles O42: a read looks at what its own host holds. -/
theorem readFaultsOnlyBeforeAResponse : Obligations.ReadFaultsOnlyBeforeAResponse := by
  intro s h f es he
  have held : (s.withEvents es).heldBy h = s.heldBy h := rfl
  rw [step_of_read he, hostRead_eq, held]
  refine ⟨fun hn => by rw [hn]; rfl, fun r hr => ⟨by rw [hr]; rfl, ?_⟩⟩
  rw [readField, hr]

/-- Settles O49: nothing is accepted and nothing is held right after reset. -/
theorem resetStateIsWellFormed : Obligations.ResetStateIsWellFormed :=
  ⟨inv_of_empty rfl rfl rfl, fun _ => ⟨inv_of_empty rfl rfl rfl, rfl, fun _ => rfl, rfl, rfl⟩⟩

end Sys2Proof.Machine
end

section
/-! The functional units against the reference meaning: the transform and its inverse, the stepper through the
transform, RENDER's length, and the exact sum. -/

namespace Sys2Proof.Machine

/-- A run of a code's bits telescopes: only the two ends are left. -/
theorem xorRun_toGrey {n : Nat} (v : BitVec n) (i k : Nat) :
    xorRun (toGrey v) i k = (v.getLsbD i ^^ v.getLsbD (i + k)) := by
  induction k with
  | zero => simp [xorRun]
  | succ k ih => simp [xorRun, ih, getLsbD_toGrey, Nat.add_assoc]

/-- `from_grey` undoes `to_grey` (R107). -/
theorem fromGrey_toGrey {n : Nat} (v : BitVec n) : fromGrey (toGrey v) = v := by
  apply BitVec.eq_of_getLsbD_eq
  intro i hi
  have hend : v.getLsbD (i + (n - i)) = false := BitVec.getLsbD_of_ge v _ (by omega)
  rw [getLsbD_fromGrey, xorRun_toGrey, hend]
  simp [hi]

/-- `to_grey` undoes `from_grey` (R107). -/
theorem toGrey_fromGrey {n : Nat} (g : BitVec n) : toGrey (fromGrey g) = g := by
  apply BitVec.eq_of_getLsbD_eq
  intro i hi
  have hrun : xorRun g i (n - i) = (g.getLsbD i ^^ xorRun g (i + 1) (n - (i + 1))) := by
    rw [← xorRun_succ_left, show n - (i + 1) + 1 = n - i by omega]
  rw [getLsbD_toGrey, getLsbD_fromGrey, getLsbD_fromGrey, hrun]
  by_cases hi' : i + 1 < n
  · simp [hi, hi']
  · simp [hi, hi', show n - (i + 1) = 0 by omega, xorRun]

theorem toGrey_zero (n : Nat) : toGrey (0 : BitVec n) = 0 := by
  simp [toGrey]

/-- `MAXG` has bit W−1 and no other (R19). -/
theorem getLsbD_maxg {n : Nat} (hn : 0 < n) (i : Nat) : (maxg n).getLsbD i = decide (i = n - 1) := by
  rw [maxg, BitVec.getLsbD_ofNat, Nat.testBit_two_pow, ← Bool.decide_and, decide_eq_decide]
  omega

/-- `MAXG` is the code of the largest word (R19). -/
theorem toGrey_allOnes {n : Nat} (hn : 0 < n) : toGrey (BitVec.allOnes n) = maxg n := by
  apply BitVec.eq_of_getLsbD_eq
  intro i hi
  rw [getLsbD_toGrey, getLsbD_maxg hn, BitVec.getLsbD_allOnes, BitVec.getLsbD_allOnes, decide_eq_true hi,
    Bool.true_xor, ← decide_not, decide_eq_decide]
  omega

theorem fromGrey_maxg {n : Nat} (hn : 0 < n) : fromGrey (maxg n) = BitVec.allOnes n := by
  rw [← toGrey_allOnes hn, fromGrey_toGrey]

theorem fromGrey_zero (n : Nat) : fromGrey (0 : BitVec n) = 0 := by
  rw [← toGrey_zero, fromGrey_toGrey, toGrey_zero]

theorem fromGrey_eq_iff {n : Nat} {g v : BitVec n} : fromGrey g = v ↔ g = toGrey v :=
  ⟨fun h => h ▸ (toGrey_fromGrey g).symm, fun h => h ▸ fromGrey_toGrey v⟩

/-- The parity of a word is the run over all its bits. -/
theorem parity_eq_xorRun {n : Nat} (g : BitVec n) : parity g = xorRun g 0 n := by
  have below : ∀ k, (popcountBelow g k % 2 == 1) = xorRun g 0 k := by
    intro k
    induction k with
    | zero => rfl
    | succ k ih =>
      rw [popcountBelow, xorRun, ← ih, Nat.zero_add]
      cases g.getLsbD k
      · simp
      · rcases Nat.mod_two_eq_zero_or_one (popcountBelow g k) with h | h <;> simp [h, Nat.add_mod]
  exact below n

/-- The parity of a code is the lowest bit of the word it encodes (R125). -/
theorem parity_toGrey {n : Nat} (v : BitVec n) : parity (toGrey v) = v.getLsbD 0 := by
  rw [parity_eq_xorRun, xorRun_toGrey, Nat.zero_add, BitVec.getLsbD_of_ge v n (Nat.le_refl n), Bool.xor_false]

/-- The word the stepper goes to: the next one, or the one before (R121). -/
def Direction.neighbour {n : Nat} (d : Direction) (v : BitVec n) : BitVec n :=
  match d with
  | .increment => v + 1
  | .decrement => v - 1

/-- A carry (or a borrow) reaches bit i through the bits below it that are all 1 (or all 0). -/
def Direction.carry {n : Nat} (d : Direction) (v : BitVec n) (i : Nat) : Bool :=
  decide (∀ j < i, v.getLsbD j = !d.bit)

theorem Direction.carry_zero {n : Nat} (d : Direction) (v : BitVec n) : d.carry v 0 = true := by
  simp [Direction.carry]

theorem Direction.carry_succ {n : Nat} (d : Direction) (v : BitVec n) (i : Nat) :
    d.carry v (i + 1) = (d.carry v i && (v.getLsbD i == !d.bit)) := by
  simp only [Direction.carry, Nat.forall_lt_succ_right, Bool.decide_and]
  rfl

/-- Stepping flips the bits that the carry reaches. -/
theorem getLsbD_neighbour {n : Nat} (d : Direction) (v : BitVec n) {i : Nat} (hi : i < n) :
    (d.neighbour v).getLsbD i = (v.getLsbD i ^^ d.carry v i) := by
  cases d with
  | increment =>
    have hlow : (∃ j < i, (~~~v).getLsbD j = true) ↔ ¬ ∀ j < i, v.getLsbD j = !Direction.increment.bit := by
      push Not
      exact exists_congr fun j => and_congr_right fun hj => by
        simp [Direction.bit, show j < n by omega]
    have hadd : v + 1 = -(~~~v) := by rw [BitVec.neg_eq_not_add, BitVec.not_not]; rfl
    rw [Direction.neighbour, hadd, BitVec.getLsbD_neg, BitVec.getLsbD_not, decide_eq_decide.mpr hlow, decide_not]
    simp [Direction.carry, hi]
  | decrement =>
    have hlow : (∃ j < i, v.getLsbD j = true) ↔ ¬ ∀ j < i, v.getLsbD j = !Direction.decrement.bit := by
      push Not
      simp [Direction.bit]
    have hsub : v - 1 = ~~~(-v) := (BitVec.not_neg v).symm
    rw [Direction.neighbour, hsub, BitVec.getLsbD_not, BitVec.getLsbD_neg, decide_eq_decide.mpr hlow, decide_not]
    simp [Direction.carry, hi]

/-- The rightmost set bit, bit by bit (R120). -/
theorem getLsbD_rightmostSetBit {n : Nat} (g : BitVec n) (i : Nat) :
    (rightmostSetBit g).getLsbD i = (g.getLsbD i && decide (∀ j < i, g.getLsbD j = false)) := by
  have hlow : (∃ j < i, g.getLsbD j = true) ↔ ¬ ∀ j < i, g.getLsbD j = false := by simp
  rw [rightmostSetBit, BitVec.getLsbD_and, BitVec.getLsbD_neg, decide_eq_decide.mpr hlow, decide_not]
  by_cases hi : i < n
  · cases g.getLsbD i <;> simp [hi]
  · simp [BitVec.getLsbD_of_ge g i (Nat.not_lt.mp hi)]

/-- Where the carry ends inside the word, the codes of a word and its neighbour differ where it ends. -/
theorem getLsbD_toGrey_neighbour {n : Nat} {d : Direction} {v : BitVec n} (h : d.carry v n = false) {i : Nat}
    (hi : i < n) : (toGrey (d.neighbour v)).getLsbD i =
      ((toGrey v).getLsbD i ^^ (d.carry v i && (v.getLsbD i == d.bit))) := by
  have hnext : (d.neighbour v).getLsbD (i + 1) = (v.getLsbD (i + 1) ^^ d.carry v (i + 1)) := by
    rcases Nat.lt_or_eq_of_le hi with hlt | heq
    · exact getLsbD_neighbour d v hlt
    · rw [show i + 1 = n from heq, h]
      simp
  rw [getLsbD_toGrey, getLsbD_toGrey, hnext, getLsbD_neighbour d v hi, Direction.carry_succ]
  generalize v.getLsbD i = x, v.getLsbD (i + 1) = y, d.carry v i = k, d.bit = b
  decide +revert

/-- When the carry starts, it goes on while the bits of the code are 0. -/
theorem toGrey_low_bits_eq_zero_iff {n : Nat} {d : Direction} {v : BitVec n} (h0 : v.getLsbD 0 = !d.bit)
    (i : Nat) : (∀ j < i, (toGrey v).getLsbD j = false) ↔ d.carry v (i + 1) = true := by
  induction i with
  | zero => simp [Direction.carry_succ, Direction.carry_zero, h0]
  | succ i ih =>
    rw [Nat.forall_lt_succ_right, ih, Direction.carry_succ d v (i + 1), Direction.carry_succ, getLsbD_toGrey]
    generalize v.getLsbD i = x, v.getLsbD (i + 1) = y, d.carry v i = k, d.bit = b
    decide +revert

/-- The rightmost set bit of a code is where the carry ends, one place lower. -/
theorem getLsbD_rightmostSetBit_toGrey {n : Nat} {d : Direction} {v : BitVec n} (h0 : v.getLsbD 0 = !d.bit)
    (i : Nat) :
    (rightmostSetBit (toGrey v)).getLsbD i = (d.carry v (i + 1) && (v.getLsbD (i + 1) == d.bit)) := by
  simp only [getLsbD_rightmostSetBit, toGrey_low_bits_eq_zero_iff h0, Bool.decide_eq_true]
  rw [getLsbD_toGrey, Direction.carry_succ]
  generalize v.getLsbD i = x, v.getLsbD (i + 1) = y, d.carry v i = k, d.bit = b
  decide +revert

/-- The step function goes to the code of the neighbour, where the carry ends inside the word (R123). -/
theorem greyStep_toGrey {n : Nat} {d : Direction} {v : BitVec n} (h : d.carry v n = false) :
    greyStep (toGrey v) d = toGrey (d.neighbour v) := by
  apply BitVec.eq_of_getLsbD_eq
  intro i hi
  rw [getLsbD_toGrey_neighbour h hi, greyStep, stepCondition, parity_toGrey]
  by_cases h0 : v.getLsbD 0 = !d.bit
  · rw [if_pos (by simp [h0]), BitVec.getLsbD_xor, BitVec.getLsbD_shiftLeft]
    congr 1
    cases i with
    | zero => simp [h0, -BitVec.getLsbD_eq_getElem]
    | succ k => simp [getLsbD_rightmostSetBit_toGrey h0, hi, -BitVec.getLsbD_eq_getElem]
  · have h0' : v.getLsbD 0 = d.bit := by simpa using h0
    rw [if_neg (by simp [h0']), BitVec.getLsbD_xor, BitVec.getLsbD_one]
    congr 1
    cases i with
    | zero => simp [h0', Direction.carry_zero, hi, -BitVec.getLsbD_eq_getElem]
    | succ k =>
      have hstop : d.carry v (k + 1) = false :=
        decide_eq_false fun hall => h0 (hall 0 (Nat.succ_pos k))
      simp [hstop]

/-- A carry that runs through the whole word runs through the largest one, a borrow through 0. -/
theorem carry_increment_eq_false {n : Nat} {v : BitVec n} (h : v ≠ BitVec.allOnes n) :
    Direction.increment.carry v n = false :=
  decide_eq_false fun hall => h (BitVec.eq_of_getLsbD_eq fun i hi => by
    rw [hall i hi, BitVec.getLsbD_allOnes, decide_eq_true hi]; rfl)

theorem carry_decrement_eq_false {n : Nat} {v : BitVec n} (h : v ≠ 0) :
    Direction.decrement.carry v n = false :=
  decide_eq_false fun hall => h (BitVec.eq_of_getLsbD_eq fun i hi => by
    rw [hall i hi]; simp [Direction.bit])

/-- Away from `MAXG` the step function is the successor through the transform (R123). -/
theorem greyStep_increment {n : Nat} (hn : 0 < n) {g : BitVec n} (h : g ≠ maxg n) :
    greyStep g .increment = toGrey (fromGrey g + 1) := by
  have hv : fromGrey g ≠ BitVec.allOnes n := fun he => h (by rw [fromGrey_eq_iff.mp he, toGrey_allOnes hn])
  have hstep := greyStep_toGrey (carry_increment_eq_false hv)
  rw [toGrey_fromGrey] at hstep
  exact hstep

/-- Away from 0 the step function is the predecessor through the transform (R123). -/
theorem greyStep_decrement {n : Nat} {g : BitVec n} (h : g ≠ 0) :
    greyStep g .decrement = toGrey (fromGrey g - 1) := by
  have hv : fromGrey g ≠ 0 := fun he => h (by rw [fromGrey_eq_iff.mp he, toGrey_zero])
  have hstep := greyStep_toGrey (carry_decrement_eq_false hv)
  rw [toGrey_fromGrey] at hstep
  exact hstep

/-- The wrapping increment is addition modulo 2^W through the transform (R126, R130). -/
theorem incWrap_eq {n : Nat} (hn : 0 < n) (g : BitVec n) : incWrap g = toGrey (fromGrey g + 1) := by
  rw [incWrap]
  split
  · rename_i h
    have hwrap : BitVec.allOnes n + 1 = 0 := by
      rw [← BitVec.neg_one_eq_allOnes]
      exact BitVec.add_left_neg 1#n
    rw [h, fromGrey_maxg hn, hwrap, toGrey_zero]
  · rename_i h
    exact greyStep_increment hn h

/-- The wrapping decrement is subtraction modulo 2^W through the transform (R127, R130). -/
theorem decWrap_eq {n : Nat} (hn : 0 < n) (g : BitVec n) : decWrap g = toGrey (fromGrey g - 1) := by
  rw [decWrap]
  split
  · rename_i h
    have hwrap : (0 : BitVec n) - 1 = BitVec.allOnes n := by
      rw [← BitVec.neg_one_eq_allOnes]
      exact BitVec.zero_sub 1#n
    rw [h, fromGrey_zero, hwrap, toGrey_allOnes hn]
  · rename_i h
    exact greyStep_decrement h

/-- The saturating increment is the wrapping one, but at the largest word (R128). -/
theorem incSaturate_eq {n : Nat} (hn : 0 < n) (g : BitVec n) :
    incSaturate g = if fromGrey g = BitVec.allOnes n then g else toGrey (fromGrey g + 1) := by
  have hmax : fromGrey g = BitVec.allOnes n ↔ g = maxg n := by rw [fromGrey_eq_iff, toGrey_allOnes hn]
  simp only [incSaturate, hmax]
  split
  · rfl
  · rename_i h
    exact greyStep_increment hn h

/-- The saturating decrement is the wrapping one, but at 0 (R129). -/
theorem decSaturate_eq {n : Nat} (g : BitVec n) :
    decSaturate g = if fromGrey g = 0 then g else toGrey (fromGrey g - 1) := by
  have hzero : fromGrey g = 0 ↔ g = 0 := by rw [fromGrey_eq_iff, toGrey_zero]
  simp only [decSaturate, hzero]
  split
  · rename_i h
    exact h.symm
  · rename_i h
    exact greyStep_decrement h

/-- The highest set bit of a word is its binary logarithm (R17, R150). -/
theorem hsb_eq_log2 {n : Nat} {v : BitVec n} (hv : v ≠ 0) : hsb v = Nat.log2 v.toNat + 1 := by
  have hzero : hsb v ≠ 0 := fun h => hv (BitVec.eq_of_getLsbD_eq fun i hi => by
    rw [getLsbD_of_hsbBelow_le v n i (h.trans_le (Nat.zero_le i)) hi]; exact BitVec.getLsbD_zero.symm)
  have hlow : 2 ^ (hsb v - 1) ≤ v.toNat := Nat.ge_two_pow_of_testBit (getLsbD_hsbBelow v n hzero)
  have hhigh : v.toNat < 2 ^ hsb v := Nat.lt_pow_two_of_testBit _ fun i hi => by
    by_cases hin : i < n
    · exact getLsbD_of_hsbBelow_le v n i hi hin
    · exact BitVec.getLsbD_of_ge v i (Nat.not_lt.mp hin)
  have hlog : Nat.log2 v.toNat = hsb v - 1 :=
    (Nat.log2_eq_iff (by simpa [BitVec.toNat_eq] using hv)).mpr ⟨hlow, by rwa [Nat.sub_add_cancel (by omega)]⟩
  omega

/-- RENDER gives as many characters as the reference says (R150, R152). -/
theorem renderChars_length (c : Config) (v : BitVec c.W) : (renderChars c v).length = renderLength c v := by
  rw [renderChars, renderLength]
  split
  · cases c.zeroRender <;> rfl
  · rename_i hv
    rw [render, List.length_map, List.length_range, hsb_eq_log2 hv]

/-- Character i of RENDER is the digit of the bit that stands i places below the highest one; 0 has the one
digit of its lowest bit, if any (R150, R152, R153). -/
theorem renderChars_getElem (c : Config) (v : BitVec c.W) {i : Nat} (hi : i < (renderChars c v).length) :
    (renderChars c v)[i] = digit (v.getLsbD (renderLength c v - 1 - i)) := by
  by_cases hv : v = 0
  · subst hv
    cases hz : c.zeroRender with
    | empty => simp [renderChars, hz] at hi
    | digit => simp [renderChars, hz] at hi ⊢
  · have hchars : renderChars c v = render v := if_neg hv
    have hlen : renderLength c v = hsb v := by rw [renderLength, if_neg hv, hsb_eq_log2 hv]
    simp [hchars, hlen, render]

/-- RENDER's characters and the 0x00 past them, position by position (R154). -/
theorem renderChars_getD (c : Config) (v : BitVec c.W) (i : Nat) :
    (renderChars c v).getD i 0x00#8 =
      if i < renderLength c v then (if v.getLsbD (renderLength c v - 1 - i) then 0x31#8 else 0x30#8)
      else 0x00#8 := by
  split
  · rename_i hi
    rw [← renderChars_length] at hi
    rw [List.getD_eq_getElem _ _ hi, renderChars_getElem, digit]
  · rename_i hi
    rw [List.getD_eq_default _ _ (by rw [renderChars_length]; omega)]

/-- RENDER's response is the one the reference describes (R150 to R155). -/
theorem renderAnswer_strResponse (c : Config) (v : BitVec c.W) :
    RenderAnswer c v (strResponse c (renderChars c v)) := by
  have hlen := renderChars_length_le c v
  have hW : c.W ≤ 64 := width_bits_le c.width
  refine ⟨rfl, rfl, ?_, padStr_length c _, fun i hi => ?_⟩
  · rw [strResponse, BitVec.toNat_ofNat, Nat.mod_eq_of_lt (by omega), renderChars_length]
  · rw [strResponse, padStr_getElem? c _ hi, renderChars_getD]

/-- In range, the RESULT of ADD_DELTA encodes the exact sum (R170). -/
theorem fromGrey_deltaResult {n : Nat} {a b : BitVec n} (h : deltaInRange a b = true) :
    ((fromGrey (deltaResult a b)).toNat : Int) = (fromGrey a).toNat + b.toInt := by
  obtain ⟨hlow, hhigh⟩ := (deltaInRange_iff a b).mp h
  rw [deltaResult, fromGrey_toGrey, deltaSum_eq, BitVec.toNat_ofInt, Int.emod_eq_of_lt hlow (by push_cast; omega)]
  exact Int.toNat_of_nonneg hlow

end Sys2Proof.Machine
end

section
/-! Every served request is answered as the reference meaning says, and the order in which responses leave. -/

namespace Sys2Proof.Machine

/-- The ILLEGAL response is the one the reference describes (R202). -/
theorem illegalResponse_eq (c : Config) : illegalResponse c = illegalAnswer c := by
  have hpad : padStr c [] = List.replicate c.W 0x00#8 := by simp [padStr]
  rw [illegalResponse, illegalAnswer, hpad]

/-- Past the table's last defined row the reference allows the ILLEGAL response only (R66). -/
theorem answers_of_eight_le {c : Config} {q : Request} (h : 8 ≤ q.op.toNat) (r : Response) :
    Answers c q r ↔ r = illegalAnswer c := by
  rw [Answers]
  split
  case h_9 => rfl
  all_goals omega

/-- The response of an instruction that draws nothing is one that the reference meaning allows. -/
theorem answers_response {c : Config} {q : Request} (h : drawsResult c (decodeRequest c q) = false) :
    Answers c q (response c (decodeRequest c q)) := by
  have hW : 0 < c.W := width_bits_pos c.width
  obtain ⟨op, a, b⟩ := q
  rcases opcode_cases op with rfl | rfl | rfl | rfl | rfl | rfl | rfl | rfl | h8
  · exact ⟨_, fromGrey_toGrey _, rfl⟩
  · exact ⟨_, toGrey_fromGrey _, rfl⟩
  · exact congrArg (numResponse c) (incWrap_eq hW _)
  · exact congrArg (numResponse c) (decWrap_eq hW _)
  · cases hs : c.hasSat with
    | true => simp [Answers, decodeRequest, response, hs, incSaturate_eq hW]
    | false => simp [Answers, decodeRequest, response, hs, illegalResponse_eq]
  · cases hs : c.hasSat with
    | true => simp [Answers, decodeRequest, response, hs, decSaturate_eq]
    | false => simp [Answers, decodeRequest, response, hs, illegalResponse_eq]
  · exact renderAnswer_strResponse c _
  · cases ha : c.hasAdd with
    | true =>
      have hr : deltaInRange (portValue c a) (portValue c b) = true := by
        simpa [decodeRequest, drawsResult, ha] using h
      simpa [Answers, decodeRequest, response, ha] using ⟨_, rfl, fun _ _ => fromGrey_deltaResult hr⟩
    | false => simp [Answers, decodeRequest, response, ha, illegalResponse_eq]
  · rw [decodeRequest_of_eight_le h8, answers_of_eight_le h8]
    exact illegalResponse_eq c

/-- Out of range the reference allows every numeric response (R171). -/
theorem answers_numResponse_of_drawsResult {c : Config} {q : Request}
    (h : drawsResult c (decodeRequest c q) = true) (v : BitVec c.W) : Answers c q (numResponse c v) := by
  obtain ⟨hop, ha, hr⟩ := drawsResult_decodeRequest_eq_true_iff.mp h
  obtain ⟨op, a, b⟩ := q
  obtain rfl : op = 0x7 := hop
  have hout : 0 ≤ ((fromGrey (portValue c a)).toNat : Int) + (portValue c b).toInt →
      ¬ ((fromGrey (portValue c a)).toNat : Int) + (portValue c b).toInt < 2 ^ c.W :=
    fun hlow hhigh => hr ⟨hlow, Int.le_sub_one_of_lt hhigh⟩
  simpa [Answers, ha] using ⟨v, rfl, fun hlow hhigh => absurd hhigh (hout hlow)⟩

/-- Whatever a request asks, `exec` delivers a response that the reference meaning allows, and changes nothing
else but the draw counter. -/
theorem exec_answers (q : Request) (s : State) :
    ∃ r n, exec (decodeRequest s.cfg q) s = .next ((s.withDraws n).withResponse r) ∧ Answers s.cfg q r := by
  cases hd : drawsResult s.cfg (decodeRequest s.cfg q) with
  | true =>
    obtain ⟨v, hv⟩ := exec_of_drawsResult hd
    exact ⟨_, _, hv, answers_numResponse_of_drawsResult hd v⟩
  | false => exact ⟨_, s.draws, exec_of_not_drawsResult hd, answers_response hd⟩

/-- A step at the block's turn answers the oldest request as the reference meaning says, its host holds the
response, and nothing else changes but the schedule and the draw counter. -/
theorem step_answers {s : State} {q : HostRequest} {qs : List HostRequest} (hs : s.blockTurn = true)
    (hq : s.accepted = q :: qs) :
    ∃ r n, step s = .next { s with
        events := s.events.tail, accepted := qs, rsp := some r, held := hold q.host r s.held, draws := n } ∧
      Answers s.cfg q.req r := by
  obtain ⟨t, r', hexec, ht, hstep⟩ := step_serves hs hq
  obtain ⟨r, n, hexec', hr⟩ := exec_answers q.req { s with events := s.events.tail, accepted := qs }
  obtain rfl := Host.Outcome.next.inj (hexec.symm.trans hexec')
  obtain rfl := Option.some.inj ht
  exact ⟨r, n, hstep, hr⟩

/-- The host of a delivered response holds it. -/
theorem lookup_hold_self (h : Nat) (r : Response) (l : List (Nat × Response)) :
    (hold h r l).lookup h = some r := by
  rw [lookup_hold, if_pos rfl]

/-- Settles O38, by induction on the number of steps: the first step answers the oldest request, and the others
answer the requests behind it. -/
theorem responsesLeaveInAcceptanceOrder : Obligations.ResponsesLeaveInAcceptanceOrder := by
  intro s k
  induction k generalizing s with
  | zero => exact fun he _ => ⟨s, rfl, rfl, he, rfl, fun _ => rfl, fun _ h0 => absurd h0 (Nat.lt_irrefl 0)⟩
  | succ k ih =>
    intro he hk
    cases hq : s.accepted with
    | nil => simp [hq] at hk
    | cons p qs =>
      obtain ⟨r, n, hstep, hr⟩ := step_answers (s := s) (by rw [State.blockTurn, he]) hq
      have hk' : k ≤ qs.length := by simpa [hq] using hk
      obtain ⟨t, hrun, hcfg, hev, hacc, hzero, hlast⟩ := ih { s with
        events := s.events.tail, accepted := qs, rsp := some r, held := hold p.host r s.held, draws := n }
        (congrArg List.tail he) hk'
      refine ⟨t, (run_succ_of_next k hstep).trans hrun, hcfg, hev, hacc,
        fun h0 => absurd h0 (Nat.succ_ne_zero k), fun q _ hget => ?_⟩
      cases k with
      | zero =>
        obtain rfl := Option.some.inj hget
        obtain rfl := hzero rfl
        exact ⟨r, rfl, lookup_hold_self _ _ _, hr⟩
      | succ k => exact hlast q (Nat.succ_pos k) hget

end Sys2Proof.Machine
end

/-! ### Proofs of the encoding family (spec/30_encoding.md) -/

section
/-! A field put below another: what the packed words of R61 and R62 are made of. -/

namespace Sys2Proof.Machine

/-- The field below reads back as the low `k` bits. -/
theorem shiftLeft_or_mod_two_pow {lo k : Nat} (hi : Nat) (h : lo < 2 ^ k) : (hi <<< k ||| lo) % 2 ^ k = lo := by
  rw [← Nat.shiftLeft_add_eq_or_of_lt h, Nat.shiftLeft_eq, Nat.add_comm, Nat.add_mul_mod_self_right,
    Nat.mod_eq_of_lt h]

/-- The field above reads back as the bits from `k` up. -/
theorem shiftLeft_or_div_two_pow {lo k : Nat} (hi : Nat) (h : lo < 2 ^ k) : (hi <<< k ||| lo) / 2 ^ k = hi := by
  rw [← Nat.shiftLeft_add_eq_or_of_lt h, Nat.shiftLeft_eq, Nat.add_comm,
    Nat.add_mul_div_right _ _ (Nat.two_pow_pos k), Nat.div_eq_of_lt h, Nat.zero_add]

/-- Fields of `m` and of `k` bits make a word of `m + k` bits. -/
theorem shiftLeft_or_lt_two_pow {hi lo m k : Nat} (hhi : hi < 2 ^ m) (hlo : lo < 2 ^ k) :
    hi <<< k ||| lo < 2 ^ (m + k) := by
  have hk : 2 ^ k ≤ 2 ^ (m + k) := Nat.pow_le_pow_right (by decide) (Nat.le_add_left k m)
  refine Nat.or_lt_two_pow ?_ (Nat.lt_of_lt_of_le hlo hk)
  rw [Nat.shiftLeft_eq, Nat.pow_add]
  exact Nat.mul_lt_mul_of_pos_right hhi (Nat.two_pow_pos k)

end Sys2Proof.Machine
end

section
/-! Packed requests (R61). -/

namespace Sys2Proof.Machine

theorem fits_eq_true_iff {c : Config} {x : Word} : c.fits x = true ↔ x.toNat < 2 ^ c.W := decide_eq_true_iff

/-- A well-formed instruction issues a request that the ports can carry (R25). -/
theorem toRequest_wf {c : Config} {i : Instr} (h : i.wf c = true) : i.toRequest.wf c = true := by
  cases i
  case toGrey | fromGrey | inc | dec | render => exact h
  all_goals
    obtain ⟨hopa, hb⟩ := Bool.and_eq_true_iff.mp h
    obtain ⟨-, ha⟩ := Bool.and_eq_true_iff.mp hopa
    exact Bool.and_eq_true_iff.mpr ⟨ha, hb⟩

/-- A packed request as fields put one below the other: B, A, OP (R61). -/
theorem packRequest_eq (c : Config) (r : Request) :
    packRequest c r = (r.b.toNat <<< c.W ||| r.a.toNat) <<< 4 ||| r.op.toNat := by
  rw [packRequest, Nat.shiftLeft_or_distrib, Nat.shiftLeft_add]

/-- The fields of a packed request, and its length (R61). -/
theorem packRequest_fields {c : Config} {r : Request} (h : r.wf c = true) :
    packRequest c r % 2 ^ 4 = r.op.toNat ∧
    packRequest c r / 2 ^ 4 % 2 ^ c.W = r.a.toNat ∧
    packRequest c r / 2 ^ (c.W + 4) = r.b.toNat ∧
    packRequest c r < 2 ^ requestBits c := by
  obtain ⟨ha, hb⟩ := Bool.and_eq_true_iff.mp h
  rw [fits_eq_true_iff] at ha hb
  have hop : r.op.toNat < 2 ^ 4 := r.op.isLt
  rw [packRequest_eq, Nat.add_comm c.W 4, Nat.pow_add 2 4, ← Nat.div_div_eq_div_mul, shiftLeft_or_div_two_pow _ hop,
    requestBits, Nat.two_mul]
  exact ⟨shiftLeft_or_mod_two_pow _ hop, shiftLeft_or_mod_two_pow _ ha, shiftLeft_or_div_two_pow _ ha,
    shiftLeft_or_lt_two_pow (shiftLeft_or_lt_two_pow hb ha) hop⟩

/-- Settles O3: the word of an instruction is the packed request that issues it. -/
theorem packedRequestHoldsItsFields : Obligations.PackedRequestHoldsItsFields :=
  fun _ _ h => packRequest_fields (toRequest_wf h)

end Sys2Proof.Machine
end

section
/-! Packed responses (R62). -/

namespace Sys2Proof.Machine

theorem packBytes_cons (x : Byte) (xs : List Byte) :
    packResponse.packBytes (x :: xs) = packResponse.packBytes xs <<< 8 ||| x.toNat := Nat.or_comm _ _

/-- Packed bytes take eight bits each. -/
theorem packBytes_lt (xs : List Byte) : packResponse.packBytes xs < 2 ^ (8 * xs.length) := by
  induction xs with
  | nil => exact Nat.one_pos
  | cons x xs ih =>
    rw [packBytes_cons]
    exact shiftLeft_or_lt_two_pow ih x.isLt

/-- Byte `i` of packed bytes stands at the eight bits from `8i`. -/
theorem getElem?_eq_packBytes {xs : List Byte} {i : Nat} (hi : i < xs.length) :
    xs[i]? = some (BitVec.ofNat 8 (packResponse.packBytes xs / 2 ^ (8 * i))) := by
  induction xs generalizing i with
  | nil => exact absurd hi (Nat.not_lt_zero i)
  | cons x xs ih =>
    rw [packBytes_cons]
    cases i with
    | zero =>
      have hx : BitVec.ofNat 8 (packResponse.packBytes xs <<< 8 ||| x.toNat) = x :=
        BitVec.eq_of_toNat_eq (shiftLeft_or_mod_two_pow _ x.isLt)
      rw [Nat.mul_zero, Nat.pow_zero, Nat.div_one, hx, List.getElem?_cons_zero]
    | succ i =>
      rw [List.getElem?_cons_succ, Nat.mul_succ, Nat.add_comm, Nat.pow_add, ← Nat.div_div_eq_div_mul,
        shiftLeft_or_div_two_pow _ x.isLt]
      exact ih (Nat.lt_of_succ_lt_succ hi)

/-- A packed response as fields put one below the other: STR, STR_LEN, RESULT, STATUS (R62). -/
theorem packResponse_eq (c : Config) (r : Response) :
    packResponse c r = ((packResponse.packBytes r.str <<< 7 ||| r.strLen.toNat) <<< c.W ||| r.result.toNat) <<< 1 |||
      r.status.bit.toNat := by
  simp only [packResponse, Nat.shiftLeft_or_distrib, ← Nat.shiftLeft_add]
  ac_rfl

/-- The fields of a packed response, and its length (R62). -/
theorem packResponse_fields {c : Config} {r : Response} (hr : r.result.toNat < 2 ^ c.W) :
    packResponse c r % 2 ^ 1 = r.status.bit.toNat ∧
    packResponse c r / 2 ^ 1 % 2 ^ c.W = r.result.toNat ∧
    packResponse c r / 2 ^ (c.W + 1) % 2 ^ 7 = r.strLen.toNat ∧
    packResponse c r / 2 ^ (c.W + 8) = packResponse.packBytes r.str ∧
    packResponse c r < 2 ^ (8 * r.str.length + 7 + c.W + 1) := by
  have hst : r.status.bit.toNat < 2 ^ 1 := r.status.bit.isLt
  have hlen : r.strLen.toNat < 2 ^ 7 := r.strLen.isLt
  have aboveStatus : packResponse c r / 2 ^ 1 =
      (packResponse.packBytes r.str <<< 7 ||| r.strLen.toNat) <<< c.W ||| r.result.toNat := by
    rw [packResponse_eq, shiftLeft_or_div_two_pow _ hst]
  have aboveResult : packResponse c r / 2 ^ (c.W + 1) = packResponse.packBytes r.str <<< 7 ||| r.strLen.toNat := by
    rw [Nat.add_comm, Nat.pow_add, ← Nat.div_div_eq_div_mul, aboveStatus, shiftLeft_or_div_two_pow _ hr]
  refine ⟨?_, ?_, ?_, ?_, ?_⟩
  · rw [packResponse_eq]
    exact shiftLeft_or_mod_two_pow _ hst
  · rw [aboveStatus]
    exact shiftLeft_or_mod_two_pow _ hr
  · rw [aboveResult]
    exact shiftLeft_or_mod_two_pow _ hlen
  · rw [show c.W + 8 = c.W + 1 + 7 from rfl, Nat.pow_add, ← Nat.div_div_eq_div_mul, aboveResult]
    exact shiftLeft_or_div_two_pow _ hlen
  · rw [packResponse_eq]
    exact shiftLeft_or_lt_two_pow (shiftLeft_or_lt_two_pow (shiftLeft_or_lt_two_pow (packBytes_lt _) hlen) hr) hst

/-- The code of STATUS (R203). -/
theorem Status.toNat_bit (st : Status) : st.bit.toNat = if st = .illegal then 1 else 0 := by
  cases st <;> rfl

/-- Settles O4: STR is the topmost field, and its bytes are packed like the fields. -/
theorem packedResponseHoldsItsFields : Obligations.PackedResponseHoldsItsFields := by
  rintro c r ⟨hr, -, hlen, -⟩
  obtain ⟨hst, hres, hstrLen, hstr, hlt⟩ := packResponse_fields hr
  refine ⟨hst.trans (Status.toNat_bit _), hres, hstrLen, fun i hi => ?_, ?_⟩
  · rw [Nat.pow_add, ← Nat.div_div_eq_div_mul, hstr]
    exact getElem?_eq_packBytes (hlen ▸ hi)
  · rw [hlen] at hlt
    rwa [show 9 * c.W + 8 = 8 * c.W + 7 + c.W + 1 by omega]

end Sys2Proof.Machine
end

section
/-! The decoder's rows (R65, R66), and what a reserved encoding does to the machine. -/

namespace Sys2Proof.Machine

/-- The reserved encodings, listed as in R66. -/
theorem isReserved_eq_true_iff {c : Config} {op : BitVec 4} :
    c.isReserved op = true ↔
      8 ≤ op.toNat ∨ ((op = 4 ∨ op = 5) ∧ c.hasSat = false) ∨ (op = 7 ∧ c.hasAdd = false) := by
  simp [Config.isReserved, or_assoc, and_comm]

/-- A step that serves a reserved encoding delivers the ILLEGAL response to the request's host, and changes
nothing else but the schedule (R66, R202). -/
theorem step_of_isReserved {s : State} {q : HostRequest} {qs : List HostRequest} (hs : s.blockTurn = true)
    (hq : s.accepted = q :: qs) (hop : s.cfg.isReserved q.req.op = true) :
    step s = .next { s with
      events := s.events.tail, accepted := qs, rsp := some (illegalAnswer s.cfg),
      held := hold q.host (illegalAnswer s.cfg) s.held } := by
  have hq' : (s.withEvents s.events.tail).accepted = q :: qs := hq
  rw [step_of_blockTurn hs, serve_cons hq', State.withEvents_cfg, decodeRequest_of_isReserved hop,
    ← illegalResponse_eq]
  rfl

/-- Settles O30: the encodings listed are the reserved ones, and delivering changes what one host holds. -/
theorem reservedEncodingsGetIllegal : Obligations.ReservedEncodingsGetIllegal := by
  intro s q qs hs hq hop
  refine ⟨_, step_of_isReserved hs hq (isReserved_eq_true_iff.mpr hop), rfl, lookup_hold_self _ _ _, fun h hne => ?_,
    rfl, rfl, rfl, rfl⟩
  exact (lookup_hold _ _ _ _).trans (if_neg hne)

/-- Settles O2: the rows with a defined OP are the decoder's own, and past them is the reserved row. -/
theorem everyOpcodeSelectsItsRow : Obligations.EveryOpcodeSelectsItsRow :=
  fun _ _ _ => ⟨rfl, rfl, rfl, rfl, rfl, rfl, rfl, rfl, fun _ => decodeRequest_of_eight_le⟩

/-- Every row but ADD_DELTA means the same for every B (R63). -/
theorem exec_decodeRequest_congr_operandB {s : State} {op : BitVec 4} (a b b' : Word) (hop : op ≠ 0x7) :
    exec (decodeRequest s.cfg ⟨op, a, b⟩) s = exec (decodeRequest s.cfg ⟨op, a, b'⟩) s := by
  rcases opcode_cases op with rfl | rfl | rfl | rfl | rfl | rfl | rfl | rfl | h8
  on_goal 9 =>
    rw [decodeRequest_of_eight_le h8, decodeRequest_of_eight_le h8]
    rfl
  on_goal 8 => exact absurd rfl hop
  on_goal 6 => cases hs : s.cfg.hasSat <;> simp [decodeRequest, exec, hs]
  on_goal 5 => cases hs : s.cfg.hasSat <;> simp [decodeRequest, exec, hs]
  all_goals rfl

/-- Settles O33: both requests mean the same, and every instruction gives a next state. -/
theorem operandBIsIgnored : Obligations.OperandBIsIgnored := by
  intro s op a b b' hop
  obtain ⟨r, n, hexec, -⟩ := exec_next (decodeRequest s.cfg ⟨op, a, b⟩) s
  exact ⟨_, hexec, exec_decodeRequest_congr_operandB a b b' hop ▸ hexec⟩

end Sys2Proof.Machine
end

/-! ### Proofs of the transform family (spec/40_transform.md) -/

section
/-! Numeric responses, and the bits the ports and the containers carry. -/

namespace Sys2Proof.Machine

/-- `respond_num` drives every field (R100). -/
theorem numResponse_numeric (c : Config) (v : BitVec c.W) : (numResponse c v).Numeric c := by
  refine ⟨rfl, ?_, rfl, ?_⟩
  · rw [numResponse, toNat_toWord]
    exact v.isLt
  · rw [numResponse, padStr, List.eq_replicate_iff]
    simp

/-- A W-bit value in a container keeps its bits. -/
theorem getLsbD_toWord (c : Config) (v : BitVec c.W) (i : Nat) : (toWord v).getLsbD i = v.getLsbD i := by
  rw [← BitVec.testBit_toNat, toNat_toWord, BitVec.testBit_toNat]

/-- The ports carry the low W bits of a container (R25). -/
theorem getLsbD_portValue (c : Config) (x : Word) (i : Nat) :
    (portValue c x).getLsbD i = (decide (i < c.W) && x.getLsbD i) := BitVec.getLsbD_setWidth c.W x i

/-- Settles O9: the numeric response, field by field. -/
theorem numericCompletionDrivesEveryField : Obligations.NumericCompletionDrivesEveryField :=
  fun s v => ⟨numResponse s.cfg v, rfl, rfl, toNat_toWord s.cfg v, rfl, padStr_length s.cfg [],
    fun _ hi => padStr_getElem? s.cfg [] hi⟩

/-- Settles O10: the code's bits, read through the ports. -/
theorem toGreyAnswersBitByBit : Obligations.ToGreyAnswersBitByBit := by
  intro s a b
  refine ⟨numResponse s.cfg (toGrey (portValue s.cfg a)), rfl, numResponse_numeric _ _, fun i hi => ?_⟩
  rw [numResponse, getLsbD_toWord, getLsbD_toGrey, getLsbD_portValue, getLsbD_portValue, decide_eq_true hi,
    Bool.true_and]

/-- Settles O12: both round trips, for every width. -/
theorem transformIsABijection : Obligations.TransformIsABijection :=
  fun _ v => ⟨fromGrey_toGrey v, toGrey_fromGrey v⟩

end Sys2Proof.Machine
end

section
/-! Counting bits: runs by their parity, and the Hamming distance of neighbouring codes. -/

namespace Sys2Proof.Machine

/-- A run is 1 exactly when an odd number of its bits are 1 (R103). -/
theorem xorRun_eq_countP {n : Nat} (g : BitVec n) (i k : Nat) :
    xorRun g i k =
      decide ((List.range (i + k)).countP (fun j => decide (i ≤ j) && g.getLsbD j) % 2 = 1) := by
  induction k with
  | zero =>
    have hnone : (List.range i).countP (fun j => decide (i ≤ j) && g.getLsbD j) = 0 :=
      List.countP_eq_zero.mpr fun j hj => by simp [List.mem_range.mp hj]
    rw [Nat.add_zero, hnone]
    rfl
  | succ k ih =>
    rw [xorRun, ih, ← Nat.add_assoc, List.range_succ, List.countP_append, List.countP_singleton,
      decide_eq_true (Nat.le_add_right i k), Bool.true_and]
    cases g.getLsbD (i + k)
    · simp
    · rw [Bool.xor_true, if_pos rfl, ← decide_not, decide_eq_decide]
      omega

/-- Settles O11: bit i of FROM_GREY is a run that ends at bit W−1. -/
theorem fromGreyAnswersPrefixParity : Obligations.FromGreyAnswersPrefixParity := by
  intro s a b
  refine ⟨numResponse s.cfg (fromGrey (portValue s.cfg a)), rfl, numResponse_numeric _ _, fun i hi => ?_⟩
  have hcount : (List.range s.W).countP (fun j => decide (i ≤ j) && (portValue s.cfg a).getLsbD j) =
      (List.range s.W).countP (fun j => decide (i ≤ j) && a.getLsbD j) :=
    List.countP_congr fun j hj => by rw [getLsbD_portValue, decide_eq_true (List.mem_range.mp hj), Bool.true_and]
  rw [numResponse, getLsbD_toWord, getLsbD_fromGrey, xorRun_eq_countP, Nat.add_sub_cancel' hi.le, hcount,
    decide_eq_true hi, Bool.true_and]

theorem popcountBelow_eq_countP {n : Nat} (v : BitVec n) (k : Nat) :
    popcountBelow v k = (List.range k).countP v.getLsbD := by
  induction k with
  | zero => rfl
  | succ k ih =>
    rw [popcountBelow, ih, List.range_succ, List.countP_append, List.countP_singleton]
    cases v.getLsbD k <;> rfl

/-- A word with one set bit has popcount 1 (R17). -/
theorem popcount_eq_one {n k : Nat} {v : BitVec n} (hk : k < n) (h : ∀ i < n, v.getLsbD i = decide (i = k)) :
    popcount v = 1 := by
  have hcount : (List.range n).countP v.getLsbD = (List.range n).count k :=
    List.countP_congr fun i hi => by simp [h i (List.mem_range.mp hi), -BitVec.getLsbD_eq_getElem]
  rw [popcount, popcountBelow_eq_countP, hcount, List.count_eq_one_of_mem List.nodup_range (List.mem_range.mpr hk)]

/-- A carry that ends inside the word ends at one bit. -/
theorem exists_carry_end {n : Nat} {d : Direction} {v : BitVec n} (h : d.carry v n = false) :
    ∃ k < n, ∀ i, (d.carry v i && (v.getLsbD i == d.bit)) = decide (i = k) := by
  have hends : ∃ k, k < n ∧ v.getLsbD k ≠ !d.bit := by simpa [Direction.carry] using h
  have hbelow : ∀ j < Nat.find hends, v.getLsbD j = !d.bit := fun j hj =>
    Decidable.not_not.mp fun hne => Nat.find_min hends hj ⟨hj.trans (Nat.find_spec hends).1, hne⟩
  obtain ⟨hk, hend⟩ := Nat.find_spec hends
  refine ⟨Nat.find hends, hk, fun i => ?_⟩
  rcases Nat.lt_trichotomy i (Nat.find hends) with hlt | heq | hgt
  · rw [hbelow i hlt, decide_eq_false hlt.ne]
    simp
  · have hcarry : d.carry v i = true := decide_eq_true (heq ▸ hbelow)
    rw [hcarry, decide_eq_true heq, heq]
    simpa using hend
  · have hstop : d.carry v i = false := decide_eq_false fun hall => hend (hall _ hgt)
    rw [hstop, decide_eq_false hgt.ne', Bool.false_and]

/-- Where the carry ends inside the word, the codes of a word and its neighbour differ in one bit (R108). -/
theorem hamming_toGrey_neighbour {n : Nat} {d : Direction} {v : BitVec n} (h : d.carry v n = false) :
    hamming (toGrey v) (toGrey (d.neighbour v)) = 1 := by
  obtain ⟨k, hk, hone⟩ := exists_carry_end h
  refine popcount_eq_one hk fun i hi => ?_
  rw [BitVec.getLsbD_xor, getLsbD_toGrey_neighbour h hi, ← hone, ← Bool.xor_assoc, Bool.xor_self, Bool.false_xor]

/-- Settles O13: below the largest word the carry of v + 1 ends inside the word. -/
theorem consecutiveCodesDifferInOneBit : Obligations.ConsecutiveCodesDifferInOneBit := by
  intro c
  have hW : 0 < c.W := width_bits_pos c.width
  refine ⟨fun v hv => ?_, toGrey_allOnes hW, toGrey_zero c.W, fun i => ?_⟩
  · have hne : v ≠ BitVec.allOnes c.W := by
      rintro rfl
      rw [BitVec.toNat_allOnes] at hv
      exact Nat.lt_irrefl _ hv
    exact hamming_toGrey_neighbour (carry_increment_eq_false hne)
  · rw [BitVec.getLsbD_xor, getLsbD_maxg hW]
    simp

end Sys2Proof.Machine
end

section
/-! The fold of R104: what its shifts are, and what they compute. -/

namespace Sys2Proof.Machine

/-- A run of a sum is the sum of the runs. -/
theorem xorRun_xor {n : Nat} (g h : BitVec n) (i k : Nat) :
    xorRun (g ^^^ h) i k = (xorRun g i k ^^ xorRun h i k) := by
  induction k with
  | zero => rfl
  | succ k ih =>
    rw [xorRun, xorRun, xorRun, ih, BitVec.getLsbD_xor, Bool.xor_assoc, Bool.xor_assoc,
      Bool.xor_left_comm (xorRun h i k)]

/-- A run of a shifted word is a run that starts higher. -/
theorem xorRun_ushiftRight {n : Nat} (g : BitVec n) (s i k : Nat) : xorRun (g >>> s) i k = xorRun g (s + i) k := by
  induction k with
  | zero => rfl
  | succ k ih => rw [xorRun, xorRun, ih, BitVec.getLsbD_ushiftRight, Nat.add_assoc]

/-- Two runs, one behind the other, make one. -/
theorem xorRun_add {n : Nat} (g : BitVec n) (i k l : Nat) :
    xorRun g i (k + l) = (xorRun g i k ^^ xorRun g (i + k) l) := by
  induction l with
  | zero => simp [xorRun]
  | succ l ih => rw [← Nat.add_assoc, xorRun, ih, xorRun, Bool.xor_assoc, Nat.add_assoc]

/-- A run above bit W−1 is 0. -/
theorem xorRun_of_ge {n : Nat} (g : BitVec n) {i : Nat} (h : n ≤ i) (k : Nat) : xorRun g i k = false := by
  induction k with
  | zero => rfl
  | succ k ih => rw [xorRun, ih, BitVec.getLsbD_of_ge g _ (by omega), Bool.xor_self]

/-- A run of W bits, of which those past bit W−1 are 0, is a bit of `from_grey` (R103). -/
theorem xorRun_width {n : Nat} (g : BitVec n) {i : Nat} (hi : i < n) : xorRun g i n = (fromGrey g).getLsbD i := by
  calc xorRun g i n
      _ = xorRun g i (n - i + i) := by rw [Nat.sub_add_cancel hi.le]
      _ = xorRun g i (n - i) := by
        rw [xorRun_add, Nat.add_sub_cancel' hi.le, xorRun_of_ge g (Nat.le_refl n), Bool.xor_false]
      _ = (fromGrey g).getLsbD i := by rw [getLsbD_fromGrey, decide_eq_true hi, Bool.true_and]

/-- The shifts from 2^k / 2 down are 2^(k−1), …, 2, 1, where the bound leaves room for them (R104). -/
theorem foldShifts_two_pow {fuel k : Nat} (h : k ≤ fuel) :
    foldShifts fuel (2 ^ k / 2) = ((List.range k).map (2 ^ ·)).reverse := by
  induction k generalizing fuel with
  | zero => cases fuel <;> rfl
  | succ k ih =>
    obtain ⟨fuel, rfl⟩ := Nat.exists_eq_succ_of_ne_zero (Nat.ne_zero_of_lt h)
    rw [Nat.pow_succ, Nat.mul_div_cancel _ Nat.two_pos, foldShifts, if_neg (Nat.two_pow_pos k).ne',
      ih (Nat.le_of_succ_le_succ h), List.range_succ, List.map_append, List.reverse_append]
    rfl

/-- The shifts of the fold on a word of 2^m bits (R104). -/
theorem foldShifts_half {n m : Nat} (hn : n = 2 ^ m) :
    foldShifts n (n / 2) = ((List.range m).map (2 ^ ·)).reverse := by
  subst hn
  exact foldShifts_two_pow Nat.lt_two_pow_self.le

/-- Folding with the shifts 2^(k−1), …, 2, 1 gathers runs of 2^k bits. -/
theorem getLsbD_foldl_shifts {n : Nat} (g : BitVec n) (k i : Nat) :
    (((List.range k).map (2 ^ ·)).reverse.foldl (fun g s => g ^^^ (g >>> s)) g).getLsbD i = xorRun g i (2 ^ k) := by
  induction k generalizing g with
  | zero => simp [xorRun]
  | succ k ih =>
    rw [List.range_succ, List.map_append, List.reverse_append]
    refine (ih (g ^^^ (g >>> 2 ^ k))).trans ?_
    rw [xorRun_xor, xorRun_ushiftRight, Nat.pow_succ, Nat.mul_two, xorRun_add, Nat.add_comm i]

/-- The fold computes `from_grey` on words of 2^m bits (R104). -/
theorem fromGreyFold_eq_fromGrey {n m : Nat} (hn : n = 2 ^ m) (g : BitVec n) : fromGreyFold g = fromGrey g := by
  apply BitVec.eq_of_getLsbD_eq
  intro i hi
  rw [fromGreyFold, foldShifts_half hn, getLsbD_foldl_shifts, ← hn, xorRun_width g hi]

/-- Every legal width is a power of two (R9). -/
theorem width_bits_eq_two_pow (w : Width) : ∃ m, w.bits = 2 ^ m := by
  cases w
  · exact ⟨3, rfl⟩
  · exact ⟨4, rfl⟩
  · exact ⟨5, rfl⟩
  · exact ⟨6, rfl⟩

/-- Settles O14: the shifts are the powers of two below W, and the fold gathers runs of W bits. -/
theorem foldEqualsPrefixXor : Obligations.FoldEqualsPrefixXor := by
  intro c
  obtain ⟨m, hm⟩ : ∃ m, c.W = 2 ^ m := width_bits_eq_two_pow c.width
  rw [foldShifts_half hm]
  refine ⟨fromGreyFold_eq_fromGrey hm, ?_, fun k hk => ?_⟩
  · rw [List.length_reverse, List.length_map, List.length_range, hm]
  · obtain ⟨j, hj, rfl⟩ := List.mem_map.mp (List.mem_reverse.mp hk)
    exact ⟨Nat.two_pow_pos j, hm ▸ Nat.pow_lt_pow_right Nat.one_lt_two (List.mem_range.mp hj)⟩

end Sys2Proof.Machine
end

/-! ### Proofs of the stepper family (spec/41_stepper.md) -/

section
/-! The step function where the carry runs through the whole word, and its Hamming distance (R124). -/

namespace Sys2Proof.Machine

/-- Where the carry runs through the whole word, the step function has no bit to flip (R124). -/
theorem greyStep_of_carry {n : Nat} (hn : 0 < n) {d : Direction} {v : BitVec n} (h : d.carry v n = true) :
    greyStep (toGrey v) d = toGrey v := by
  have hall : ∀ j < n, v.getLsbD j = !d.bit := of_decide_eq_true h
  have h0 : v.getLsbD 0 = !d.bit := hall 0 hn
  have hshift : rightmostSetBit (toGrey v) <<< 1 = 0 := BitVec.eq_of_getLsbD_eq fun i hi => by
    cases i with
    | zero => simp
    | succ k => simp [getLsbD_rightmostSetBit_toGrey h0, hall (k + 1) hi, -BitVec.getLsbD_eq_getElem]
  rw [greyStep, stepCondition, parity_toGrey, if_pos (by simp [h0]), hshift]
  exact BitVec.xor_zero

/-- The increment saturates at `MAXG` (R124). -/
theorem greyStep_maxg {n : Nat} (hn : 0 < n) : greyStep (maxg n) .increment = maxg n := by
  rw [← toGrey_allOnes hn]
  exact greyStep_of_carry hn (decide_eq_true fun j hj => by simp [hj, Direction.bit])

/-- The decrement saturates at 0 (R124). -/
theorem greyStep_zero {n : Nat} (hn : 0 < n) : greyStep (0 : BitVec n) .decrement = 0 := by
  rw [← toGrey_zero]
  exact greyStep_of_carry hn (decide_eq_true fun j _ => by simp [Direction.bit])

/-- The saturating increment is the step function everywhere (R128). -/
theorem incSaturate_eq_greyStep {n : Nat} (hn : 0 < n) (g : BitVec n) : incSaturate g = greyStep g .increment := by
  rw [incSaturate]
  split
  · rename_i h
    rw [h, greyStep_maxg hn]
  · rfl

/-- The saturating decrement is the step function everywhere (R129). -/
theorem decSaturate_eq_greyStep {n : Nat} (hn : 0 < n) (g : BitVec n) : decSaturate g = greyStep g .decrement := by
  rw [decSaturate]
  split
  · rename_i h
    rw [h, greyStep_zero hn]
  · rfl

theorem hamming_self {n : Nat} (g : BitVec n) : hamming g g = 0 := by
  rw [hamming, BitVec.xor_self, popcount, popcountBelow_eq_countP]
  exact List.countP_eq_zero.mpr fun i _ => by simp

theorem hamming_comm {n : Nat} (g h : BitVec n) : hamming g h = hamming h g := by
  rw [hamming, BitVec.xor_comm, hamming]

/-- The two ends of the cycle differ in bit W−1 only (R108). -/
theorem hamming_maxg_zero {n : Nat} (hn : 0 < n) : hamming (maxg n) 0 = 1 :=
  popcount_eq_one (Nat.sub_one_lt_of_lt hn) fun i _ => by
    rw [BitVec.getLsbD_xor, getLsbD_maxg hn]
    simp

/-- Where the carry ends inside the word, the step function flips one bit (R124). -/
theorem hamming_greyStep {n : Nat} {d : Direction} {g : BitVec n} (h : d.carry (fromGrey g) n = false) :
    hamming g (greyStep g d) = 1 := by
  have hone := hamming_toGrey_neighbour h
  rwa [← greyStep_toGrey h, toGrey_fromGrey] at hone

theorem hamming_greyStep_increment {n : Nat} (hn : 0 < n) {g : BitVec n} (h : g ≠ maxg n) :
    hamming g (greyStep g .increment) = 1 :=
  hamming_greyStep (carry_increment_eq_false fun he => h (by rw [fromGrey_eq_iff.mp he, toGrey_allOnes hn]))

theorem hamming_greyStep_decrement {n : Nat} {g : BitVec n} (h : g ≠ 0) :
    hamming g (greyStep g .decrement) = 1 :=
  hamming_greyStep (carry_decrement_eq_false fun he => h (by rw [fromGrey_eq_iff.mp he, toGrey_zero]))

/-- INC's function changes one bit of every word, the wrap included (R132). -/
theorem hamming_incWrap {n : Nat} (hn : 0 < n) (g : BitVec n) : hamming g (incWrap g) = 1 := by
  rw [incWrap]
  split
  · rename_i h
    rw [h, hamming_maxg_zero hn]
  · rename_i h
    exact hamming_greyStep_increment hn h

/-- DEC's function changes one bit of every word, the wrap included (R132). -/
theorem hamming_decWrap {n : Nat} (hn : 0 < n) (g : BitVec n) : hamming g (decWrap g) = 1 := by
  rw [decWrap]
  split
  · rename_i h
    rw [h, hamming_comm, hamming_maxg_zero hn]
  · rename_i h
    exact hamming_greyStep_decrement h

/-- INC_SAT's function changes one bit, and none at its saturation point (R132). -/
theorem hamming_incSaturate {n : Nat} (hn : 0 < n) (g : BitVec n) :
    hamming g (incSaturate g) = if g = maxg n then 0 else 1 := by
  rw [incSaturate]
  split
  · exact hamming_self g
  · rename_i h
    exact hamming_greyStep_increment hn h

/-- DEC_SAT's function changes one bit, and none at its saturation point (R132). -/
theorem hamming_decSaturate {n : Nat} (g : BitVec n) :
    hamming g (decSaturate g) = if g = 0 then 0 else 1 := by
  rw [decSaturate]
  split
  · rename_i h
    rw [h, hamming_self]
  · rename_i h
    exact hamming_greyStep_decrement h

/-- Settles O15: the step function goes to the neighbour's code where the carry ends inside the word. -/
theorem stepAgreesWithTheTransform : Obligations.StepAgreesWithTheTransform :=
  fun c _ => ⟨greyStep_increment (width_bits_pos c.width), greyStep_decrement⟩

/-- Settles O16: one direction at a time, the carry ends inside the word except at the saturation point. -/
theorem stepSaturatesAndElseFlipsOneBit : Obligations.StepSaturatesAndElseFlipsOneBit := by
  intro c
  have hW : 0 < c.W := width_bits_pos c.width
  refine ⟨greyStep_maxg hW, greyStep_zero hW, fun g d hmax hzero => ?_⟩
  cases d with
  | increment => exact hamming_greyStep_increment hW fun h => hmax ⟨h, rfl⟩
  | decrement => exact hamming_greyStep_decrement fun h => hzero ⟨h, rfl⟩

end Sys2Proof.Machine
end

section
/-! The stepper's functions as arithmetic: inverses, the values at the boundary, and iteration (R130, R131). -/

namespace Sys2Proof.Machine

/-- INC's function adds 1 to the word that is encoded (R130). -/
theorem fromGrey_incWrap {n : Nat} (hn : 0 < n) (g : BitVec n) : fromGrey (incWrap g) = fromGrey g + 1 := by
  rw [incWrap_eq hn, fromGrey_toGrey]

/-- DEC's function subtracts 1 from the word that is encoded (R130). -/
theorem fromGrey_decWrap {n : Nat} (hn : 0 < n) (g : BitVec n) : fromGrey (decWrap g) = fromGrey g - 1 := by
  rw [decWrap_eq hn, fromGrey_toGrey]

theorem decWrap_incWrap {n : Nat} (hn : 0 < n) (g : BitVec n) : decWrap (incWrap g) = g := by
  rw [decWrap_eq hn, fromGrey_incWrap hn, BitVec.add_sub_cancel, toGrey_fromGrey]

theorem incWrap_decWrap {n : Nat} (hn : 0 < n) (g : BitVec n) : incWrap (decWrap g) = g := by
  rw [incWrap_eq hn, fromGrey_decWrap hn, BitVec.sub_add_cancel, toGrey_fromGrey]

theorem incWrap_maxg (n : Nat) : incWrap (maxg n) = 0 := if_pos rfl

theorem decWrap_zero (n : Nat) : decWrap (0 : BitVec n) = maxg n := if_pos rfl

/-- The code of 1, the successor of 0, is 1 (R126). -/
theorem incWrap_zero {n : Nat} (hn : 0 < n) : incWrap (0 : BitVec n) = 1 := by
  have hone : (1 : BitVec n) >>> 1 = 0 := BitVec.eq_of_getLsbD_eq fun i _ => by
    rw [BitVec.getLsbD_ushiftRight]
    simp
  rw [incWrap_eq hn, fromGrey_zero, zero_add, toGrey, hone]
  exact BitVec.xor_zero

theorem decWrap_one {n : Nat} (hn : 0 < n) : decWrap (1 : BitVec n) = 0 := by
  rw [← incWrap_zero hn, decWrap_incWrap hn]

theorem maxg_ne_zero {n : Nat} (hn : 0 < n) : maxg n ≠ 0 := fun h => by
  have hbit := getLsbD_maxg hn (n - 1)
  rw [h] at hbit
  simp at hbit

/-- Adding 1 to an even word sets its lowest bit. -/
theorem add_one_eq_xor_one {n : Nat} {v : BitVec n} (h : v.getLsbD 0 = false) : v + 1 = v ^^^ 1 := by
  apply BitVec.eq_of_getLsbD_eq
  intro i hi
  refine (getLsbD_neighbour .increment v hi).trans ?_
  rw [BitVec.getLsbD_xor]
  congr 1
  cases i with
  | zero => simp [Direction.carry_zero, hi]
  | succ k =>
    have hstop : Direction.increment.carry v (k + 1) = false :=
      decide_eq_false fun hall => by simpa [h, Direction.bit] using hall 0 (Nat.succ_pos k)
    simp [hstop]

/-- The code of the largest word has odd parity, so DEC's function flips its lowest bit (R127). -/
theorem decWrap_maxg {n : Nat} (hn : 1 < n) : decWrap (maxg n) = maxg n + 1 := by
  have hpos : 0 < n := Nat.zero_lt_of_lt hn
  have heven : (maxg n).getLsbD 0 = false := by
    rw [getLsbD_maxg hpos]
    exact decide_eq_false (by omega)
  have hodd : parity (maxg n) = true := by
    rw [← toGrey_allOnes hpos, parity_toGrey, BitVec.getLsbD_allOnes, decide_eq_true hpos]
  rw [decWrap, if_neg (maxg_ne_zero hpos), greyStep, stepCondition, hodd, add_one_eq_xor_one heven]
  rfl

/-- Away from `MAXG` the saturating increment is the wrapping one (R130). -/
theorem incSaturate_of_ne {n : Nat} {g : BitVec n} (h : g ≠ maxg n) : incSaturate g = incWrap g := by
  rw [incSaturate, incWrap, if_neg h, if_neg h]

/-- Away from 0 the saturating decrement is the wrapping one (R130). -/
theorem decSaturate_of_ne {n : Nat} {g : BitVec n} (h : g ≠ 0) : decSaturate g = decWrap g := by
  rw [decSaturate, decWrap, if_neg h, if_neg h]

theorem decSaturate_incSaturate {n : Nat} (hn : 0 < n) {g : BitVec n} (h : g ≠ maxg n) :
    decSaturate (incSaturate g) = g := by
  have hne : incWrap g ≠ 0 := fun h0 => h (by rw [← decWrap_incWrap hn g, h0, decWrap_zero])
  rw [incSaturate_of_ne h, decSaturate_of_ne hne, decWrap_incWrap hn]

theorem incSaturate_decSaturate {n : Nat} (hn : 0 < n) {g : BitVec n} (h : g ≠ 0) :
    incSaturate (decSaturate g) = g := by
  have hne : decWrap g ≠ maxg n := fun h0 => h (by rw [← incWrap_decWrap hn g, h0, incWrap_maxg])
  rw [decSaturate_of_ne h, incSaturate_of_ne hne, incWrap_decWrap hn]

theorem one_lt_width_bits (w : Width) : 1 < w.bits := by cases w <;> decide

/-- Settles O21: arithmetic through the transform, and the boundary values. -/
theorem wrappingPairIsModularArithmetic : Obligations.WrappingPairIsModularArithmetic := by
  intro c g
  have hW : 0 < c.W := width_bits_pos c.width
  have hmaxg : maxg c.W ≠ 0 := maxg_ne_zero hW
  refine ⟨incWrap_eq hW g, decWrap_eq hW g, decWrap_incWrap hW g, incWrap_decWrap hW g, decSaturate_incSaturate hW,
    incSaturate_decSaturate hW, if_pos rfl, ?_, if_pos rfl, ?_⟩
  · rw [decSaturate_of_ne hmaxg, decWrap_maxg (one_lt_width_bits c.width)]
  · rw [incSaturate_of_ne hmaxg.symm, incWrap_zero hW]

/-- Repeated INC counts up from the word that is encoded (R131). -/
theorem iterate_incWrap {n : Nat} (hn : 0 < n) (g : BitVec n) (k : Nat) :
    incWrap^[k] g = toGrey (fromGrey g + BitVec.ofNat n k) := by
  induction k with
  | zero => rw [BitVec.add_zero, toGrey_fromGrey, Function.iterate_zero_apply]
  | succ k ih =>
    rw [Function.iterate_succ_apply', ih, incWrap_eq hn, fromGrey_toGrey, BitVec.add_assoc, BitVec.ofNat_add]
    rfl

/-- Repeated DEC counts down from the word that is encoded (R131). -/
theorem iterate_decWrap {n : Nat} (hn : 0 < n) (g : BitVec n) (k : Nat) :
    decWrap^[k] g = toGrey (fromGrey g - BitVec.ofNat n k) := by
  induction k with
  | zero => rw [BitVec.sub_zero, toGrey_fromGrey, Function.iterate_zero_apply]
  | succ k ih =>
    rw [Function.iterate_succ_apply', ih, decWrap_eq hn, fromGrey_toGrey, BitVec.ofNat_add, sub_add_eq_sub_sub]
    rfl

/-- Each word is the word of one number below 2^n. -/
theorem existsUnique_ofNat_eq {n : Nat} (v : BitVec n) : ∃! k, k < 2 ^ n ∧ BitVec.ofNat n k = v := by
  refine ⟨v.toNat, ⟨v.isLt, (BitVec.ofNat_toNat n v).trans (BitVec.setWidth_eq v)⟩, ?_⟩
  rintro k ⟨hk, rfl⟩
  rw [BitVec.toNat_ofNat, Nat.mod_eq_of_lt hk]

theorem ofNat_two_pow (n : Nat) : BitVec.ofNat n (2 ^ n) = 0#n :=
  BitVec.eq_of_toNat_eq (by rw [BitVec.toNat_ofNat, Nat.mod_self, BitVec.toNat_zero])

/-- The saturating increment adds 1 up to the largest word (R128). -/
theorem toNat_fromGrey_incSaturate {n : Nat} (hn : 0 < n) (g : BitVec n) :
    (fromGrey (incSaturate g)).toNat = min ((fromGrey g).toNat + 1) (2 ^ n - 1) := by
  rw [incSaturate_eq hn]
  split
  · rename_i h
    rw [h, BitVec.toNat_allOnes]
    omega
  · rename_i h
    have hlt := (fromGrey g).isLt
    have hne : (fromGrey g).toNat ≠ 2 ^ n - 1 := fun he =>
      h (BitVec.eq_of_toNat_eq (he.trans BitVec.toNat_allOnes.symm))
    have hone : (1 : BitVec n).toNat = 1 := BitVec.toNat_one hn
    rw [fromGrey_toGrey, BitVec.toNat_add_of_lt (by omega), hone]
    omega

/-- Repeated INC_SAT counts up to the largest word and stays there (R131). -/
theorem toNat_fromGrey_iterate_incSaturate {n : Nat} (hn : 0 < n) (g : BitVec n) (k : Nat) :
    (fromGrey (incSaturate^[k] g)).toNat = min ((fromGrey g).toNat + k) (2 ^ n - 1) := by
  induction k with
  | zero =>
    have := (fromGrey g).isLt
    rw [Function.iterate_zero_apply]
    omega
  | succ k ih =>
    rw [Function.iterate_succ_apply', toNat_fromGrey_incSaturate hn, ih]
    omega

/-- `MAXG` is the one word that encodes 2^n − 1 (R19). -/
theorem eq_maxg_iff {n : Nat} (hn : 0 < n) (g : BitVec n) : g = maxg n ↔ (fromGrey g).toNat = 2 ^ n - 1 := by
  rw [← BitVec.toNat_allOnes, ← BitVec.toNat_eq, fromGrey_eq_iff, toGrey_allOnes hn]

/-- Settles O22: the iterates are sums and differences, and those are solved for the number of steps. -/
theorem repeatedIncWalksTheCycle : Obligations.RepeatedIncWalksTheCycle := by
  intro c g
  have hW : 0 < c.W := width_bits_pos c.width
  refine ⟨iterate_incWrap hW g, iterate_decWrap hW g, ?_, ?_, fun w => ?_, fun w => ?_, fun k => ?_⟩
  · rw [iterate_incWrap hW, ofNat_two_pow, BitVec.add_zero, toGrey_fromGrey]
  · rw [iterate_decWrap hW, ofNat_two_pow, BitVec.sub_zero, toGrey_fromGrey]
  · have hsolve : ∀ k, incWrap^[k] g = w ↔ BitVec.ofNat c.W k = fromGrey w - fromGrey g := fun k => by
      rw [iterate_incWrap hW, eq_comm, ← fromGrey_eq_iff, eq_sub_iff_add_eq', eq_comm]
    simpa only [hsolve] using existsUnique_ofNat_eq _
  · have hsolve : ∀ k, decWrap^[k] g = w ↔ BitVec.ofNat c.W k = fromGrey g - fromGrey w := fun k => by
      rw [iterate_decWrap hW, eq_comm, ← fromGrey_eq_iff, eq_sub_iff_add_eq, eq_sub_iff_add_eq']
    simpa only [hsolve] using existsUnique_ofNat_eq _
  · rw [eq_maxg_iff hW, toNat_fromGrey_iterate_incSaturate hW]
    omega

end Sys2Proof.Machine
end

section
/-! The four opcodes of the stepper, and served requests against the reference meaning. -/

namespace Sys2Proof.Machine

/-- With HAS_SAT, INC_SAT answers with the saturating successor of what the port carries (R128). -/
theorem exec_incSat_of_hasSat {s : State} (hs : s.cfg.hasSat = true) (a b : Word) :
    exec (.incSat a b) s =
      .next { s with rsp := some (numResponse s.cfg (incSaturate (portValue s.cfg a))) } :=
  if_pos hs

/-- Without HAS_SAT, INC_SAT answers ILLEGAL (log 11). -/
theorem exec_incSat_of_not_hasSat {s : State} (hs : s.cfg.hasSat = false) (a b : Word) :
    exec (.incSat a b) s = .next { s with rsp := some (illegalAnswer s.cfg) } := by
  rw [← illegalResponse_eq]
  exact if_neg (Bool.eq_false_iff.mp hs)

/-- With HAS_SAT, DEC_SAT answers with the saturating predecessor of what the port carries (R129). -/
theorem exec_decSat_of_hasSat {s : State} (hs : s.cfg.hasSat = true) (a b : Word) :
    exec (.decSat a b) s =
      .next { s with rsp := some (numResponse s.cfg (decSaturate (portValue s.cfg a))) } :=
  if_pos hs

/-- Without HAS_SAT, DEC_SAT answers ILLEGAL (log 11). -/
theorem exec_decSat_of_not_hasSat {s : State} (hs : s.cfg.hasSat = false) (a b : Word) :
    exec (.decSat a b) s = .next { s with rsp := some (illegalAnswer s.cfg) } := by
  rw [← illegalResponse_eq]
  exact if_neg (Bool.eq_false_iff.mp hs)

/-- Settles O17: INC's function on what the port carries. -/
theorem incAnswersWrappingSuccessor : Obligations.IncAnswersWrappingSuccessor := by
  intro s a b
  have hW : 0 < s.W := width_bits_pos s.cfg.width
  refine ⟨incWrap (portValue s.cfg a), rfl, incWrap_eq hW _, fun hmax => ?_, fun hzero => ?_, hamming_incWrap hW _⟩
  · rw [portValue, hmax, incWrap_maxg]
  · rw [portValue, hzero, incWrap_zero hW]

/-- Settles O18: DEC's function on what the port carries. -/
theorem decAnswersWrappingPredecessor : Obligations.DecAnswersWrappingPredecessor := by
  intro s a b
  have hW : 0 < s.W := width_bits_pos s.cfg.width
  refine ⟨decWrap (portValue s.cfg a), rfl, decWrap_eq hW _, fun hzero => ?_, fun hmax => ?_, fun hone => ?_⟩
  · rw [portValue, hzero, decWrap_zero]
  · rw [portValue, hmax, decWrap_maxg (one_lt_width_bits s.cfg.width)]
  · rw [portValue, hone, decWrap_one hW]

/-- Settles O19: INC_SAT's function is the step function, which saturates at `MAXG`. -/
theorem incSatAnswersSaturatingSuccessor : Obligations.IncSatAnswersSaturatingSuccessor := by
  intro s a b
  have hW : 0 < s.W := width_bits_pos s.cfg.width
  refine ⟨fun hs => ⟨incSaturate (portValue s.cfg a), exec_incSat_of_hasSat hs a b, incSaturate_eq_greyStep hW _,
    fun hmax => ?_, fun hne => ?_⟩, fun hs => exec_incSat_of_not_hasSat hs a b⟩
  · exact (if_pos hmax).trans hmax
  · exact (if_neg hne).trans (greyStep_increment hW hne)

/-- Settles O20: DEC_SAT's function is the step function, which saturates at 0. -/
theorem decSatAnswersSaturatingPredecessor : Obligations.DecSatAnswersSaturatingPredecessor := by
  intro s a b
  have hW : 0 < s.W := width_bits_pos s.cfg.width
  refine ⟨fun hs => ⟨decSaturate (portValue s.cfg a), exec_decSat_of_hasSat hs a b, decSaturate_eq_greyStep hW _,
    fun hzero => if_pos hzero, fun hne => ?_⟩, fun hs => exec_decSat_of_not_hasSat hs a b⟩
  exact (if_neg hne).trans (greyStep_decrement hne)

/-- Settles O23: the Hamming distances of the four functions. -/
theorem stepOpcodesChangeAtMostOneBit : Obligations.StepOpcodesChangeAtMostOneBit := by
  intro s a b
  have hW : 0 < s.W := width_bits_pos s.cfg.width
  exact ⟨incWrap (portValue s.cfg a), decWrap (portValue s.cfg a), rfl, hamming_incWrap hW _, rfl,
    hamming_decWrap hW _, fun hs => ⟨_, _, exec_incSat_of_hasSat hs a b, hamming_incSaturate hW _,
      exec_decSat_of_hasSat hs a b, hamming_decSaturate _⟩⟩

/-- Settles O37: what a step at the block's turn does, with the reference meaning of its request. -/
theorem servedRequestIsAnsweredAsTheSpecSays : Obligations.ServedRequestIsAnsweredAsTheSpecSays :=
  fun _ _ _ => step_answers

end Sys2Proof.Machine
end

section
/-! RENDER: its response in every state, and reading its characters back as a base-2 numeral. -/

namespace Sys2Proof.Machine

/-- Settles O24: `exec` puts the characters of what the port carries into STR, and the reference describes that. -/
theorem renderAnswersPositionByPosition : Obligations.RenderAnswersPositionByPosition :=
  fun s a _ => ⟨strResponse s.cfg (renderChars s.cfg (portValue s.cfg a)), rfl, renderAnswer_strResponse s.cfg _⟩

/-- The first characters of STR are the characters themselves, up to where the 0x00 bytes begin (R154). -/
theorem take_length_padStr {c : Config} {chars : List Byte} (h : chars.length ≤ c.W) :
    (padStr c chars).take chars.length = chars := by
  refine List.ext_getElem (by simpa using h) fun i _ hi => ?_
  simp [padStr, hi]

/-- `STR[0..STR_LEN−1]` of RENDER's response are the characters it gives (R151). -/
theorem take_strLen_strResponse (c : Config) (v : BitVec c.W) :
    (strResponse c (renderChars c v)).str.take (strResponse c (renderChars c v)).strLen.toNat =
      renderChars c v := by
  obtain ⟨-, -, hlen, -⟩ := renderAnswer_strResponse c v
  rw [hlen, ← renderChars_length]
  exact take_length_padStr (renderChars_length_le c v)

/-- One more digit doubles the numeral and adds the digit's bit (R158). -/
theorem numeralValue_append_digit (chars : List Byte) (b : Bool) :
    numeralValue (chars ++ [digit b]) = 2 * numeralValue chars + b.toNat := by
  have hbit : ∀ b, (if digit b = 0x31#8 then 1 else 0) = b.toNat := by decide
  rw [numeralValue, List.foldl_append, List.foldl_cons, List.foldl_nil, hbit, ← numeralValue]

/-- The first `k` of `h` digits, from bit h−1 down, spell the word without its lowest h−k bits. -/
theorem numeralValue_leading_digits {n h k : Nat} {v : BitVec n} (hv : v.toNat < 2 ^ h) (hk : k ≤ h) :
    numeralValue ((List.range k).map fun i => digit (v.getLsbD (h - 1 - i))) = v.toNat / 2 ^ (h - k) := by
  induction k with
  | zero => exact (Nat.div_eq_of_lt hv).symm
  | succ k ih =>
    have hexp : h - k = h - (k + 1) + 1 := by omega
    have hpos : h - 1 - k = h - (k + 1) := by omega
    have hbit : (v.getLsbD (h - (k + 1))).toNat = v.toNat / 2 ^ (h - (k + 1)) % 2 := Nat.toNat_testBit _ _
    rw [List.range_succ, List.map_append, List.map_singleton, numeralValue_append_digit, ih (by omega), hexp, hpos,
      hbit, Nat.pow_succ, ← Nat.div_div_eq_div_mul]
    omega

/-- `hsb` bounds the word: no bit is set at or above it (R17). -/
theorem toNat_lt_two_pow_hsb {n : Nat} {v : BitVec n} (hv : v ≠ 0) : v.toNat < 2 ^ hsb v := by
  rw [hsb_eq_log2 hv]
  exact Nat.lt_log2_self

/-- RENDER's characters spell the word; those of 0 spell 0, also where there are none (R158). -/
theorem numeralValue_renderChars (c : Config) (v : BitVec c.W) : numeralValue (renderChars c v) = v.toNat := by
  rw [renderChars]
  split
  · rename_i hv
    subst hv
    cases c.zeroRender <;> simp [numeralValue, digit]
  · rename_i hv
    rw [render, numeralValue_leading_digits (toNat_lt_two_pow_hsb hv) le_rfl, Nat.sub_self, pow_zero, Nat.div_one]

/-- 0 under DIGIT is the one character '0' (R152). -/
theorem renderChars_zero_of_digit {c : Config} (hz : c.zeroRender = .digit) : renderChars c 0 = [digit false] := by
  rw [renderChars, if_pos rfl, hz]

/-- 0 under EMPTY has no characters (R152). -/
theorem renderChars_zero_of_empty {c : Config} (hz : c.zeroRender = .empty) : renderChars c 0 = [] := by
  rw [renderChars, if_pos rfl, hz]

/-- Settles O25: the characters in STR spell the word that was rendered, and only 0 under EMPTY has none. -/
theorem renderRoundTripsExceptAtZero : Obligations.RenderRoundTripsExceptAtZero := by
  intro s a b
  refine ⟨strResponse s.cfg (renderChars s.cfg (portValue s.cfg a)), rfl, ?_⟩
  rw [take_strLen_strResponse, numeralValue_renderChars, portValue]
  refine ⟨fun _ => rfl, fun hzero hz => ⟨?_, ?_⟩, fun hzero hz => ?_⟩
  · rw [hzero, renderChars_zero_of_digit hz]
    exact List.cons_ne_nil _ _
  · rw [hzero]
    rfl
  · rw [hzero, renderChars_zero_of_empty hz]

end Sys2Proof.Machine
end

/-! ### Proofs of the add-delta family (spec/43_add_delta.md) -/

section
/-! ADD_DELTA: what `exec` does with and without HAS_ADD, and the exact sum as addition modulo 2^W. -/

namespace Sys2Proof.Machine

/-- With HAS_ADD and the sum in range, ADD_DELTA answers with the sum's code and changes only the response (R170). -/
theorem exec_addDelta_of_inRange {s : State} {a b : Word} (ha : s.cfg.hasAdd = true)
    (hr : deltaInRange (portValue s.cfg a) (portValue s.cfg b) = true) :
    exec (.addDelta a b) s =
      .next { s with rsp := some (numResponse s.cfg (deltaResult (portValue s.cfg a) (portValue s.cfg b))) } :=
  (if_pos ha).trans (if_pos hr)

/-- With HAS_ADD and the sum out of range, ADD_DELTA answers with some word and counts the draw (R171; log 2). -/
theorem exec_addDelta_of_outOfRange {s : State} {a b : Word} (ha : s.cfg.hasAdd = true)
    (hr : deltaInRange (portValue s.cfg a) (portValue s.cfg b) = false) :
    ∃ v, exec (.addDelta a b) s =
      .next { s with rsp := some (numResponse s.cfg v), draws := s.draws + 1 } :=
  exec_of_drawsResult (by simp [drawsResult, ha, hr])

/-- Without HAS_ADD, ADD_DELTA answers ILLEGAL (log 11). -/
theorem exec_addDelta_of_not_hasAdd {s : State} (ha : s.cfg.hasAdd = false) (a b : Word) :
    exec (.addDelta a b) s = .next { s with rsp := some (illegalAnswer s.cfg) } := by
  rw [← illegalResponse_eq]
  exact if_neg (Bool.eq_false_iff.mp ha)

/-- The sum's low bits are those of the addition modulo 2^W (R170). -/
theorem deltaResult_eq {n : Nat} (g d : BitVec n) : deltaResult g d = toGrey (fromGrey g + d) := by
  rw [deltaResult, deltaSum_eq, BitVec.ofInt_add, BitVec.ofInt_natCast, BitVec.ofInt_toInt, BitVec.ofNat_toNat,
    BitVec.setWidth_eq]

/-- A delta of 0 encodes the same word again (R170). -/
theorem deltaResult_zero {n : Nat} (g : BitVec n) : deltaResult g 0 = g := by
  rw [deltaResult_eq, add_zero, toGrey_fromGrey]

/-- A delta of 0 is in range at every word (R170). -/
theorem deltaInRange_zero {n : Nat} (g : BitVec n) : deltaInRange g 0 = true := by
  rw [deltaInRange_iff, BitVec.ofNat_eq_ofNat, BitVec.toInt_zero]
  have hlt : ((fromGrey g).toNat : Int) < 2 ^ n := mod_cast (fromGrey g).isLt
  omega

/-- Settles O26: in range by the sum's code, out of range by the draw, which a delta of 0 never is. -/
theorem addDeltaAnswersTheSum : Obligations.AddDeltaAnswersTheSum := by
  refine fun s a b => ⟨fun ha => ?_, fun ha => exec_addDelta_of_not_hasAdd ha a b⟩
  cases hr : deltaInRange (portValue s.cfg a) (portValue s.cfg b) with
  | true =>
    refine ⟨_, deltaResult (portValue s.cfg a) (portValue s.cfg b), exec_addDelta_of_inRange ha hr, rfl,
      fun _ _ => ⟨rfl, fromGrey_deltaResult hr⟩, fun hb => ?_⟩
    rw [portValue, portValue, hb, deltaResult_zero]
  | false =>
    obtain ⟨v, hexec⟩ := exec_addDelta_of_outOfRange ha hr
    refine ⟨_, v, hexec, rfl, fun hlow hhigh => ?_, fun hb => ?_⟩
    · exact absurd ((deltaInRange_iff _ _).mpr ⟨hlow, hhigh⟩) (Bool.eq_false_iff.mp hr)
    · rw [portValue, portValue, hb, deltaInRange_zero] at hr
      cases hr

/-- Settles O27: a sum out of range draws. -/
theorem addDeltaOutOfRangeStillAnswers : Obligations.AddDeltaOutOfRangeStillAnswers := by
  intro s a b ha hout
  refine exec_addDelta_of_outOfRange ha (Bool.eq_false_iff.mpr fun hr => ?_)
  obtain ⟨hlow, hhigh⟩ := (deltaInRange_iff _ _).mp hr
  exact hout.elim (not_lt.mpr hlow) (not_le.mpr (Int.lt_of_le_sub_one hhigh))

end Sys2Proof.Machine
end

section
/-! ADD_DELTA by +1 and by −1 against the stepper (R172). -/

namespace Sys2Proof.Machine

/-- A delta of +1 gives what INC's function gives (R172). -/
theorem deltaResult_eq_incWrap {n : Nat} (hn : 0 < n) {g d : BitVec n} (hd : d.toInt = 1) :
    deltaResult g d = incWrap g := by
  have hone : d = 1 := (BitVec.ofInt_toInt (x := d)).symm.trans (congrArg _ hd)
  rw [deltaResult_eq, incWrap_eq hn, hone]

/-- A delta of −1 gives what DEC's function gives (R172). -/
theorem deltaResult_eq_decWrap {n : Nat} (hn : 0 < n) {g d : BitVec n} (hd : d.toInt = -1) :
    deltaResult g d = decWrap g := by
  have hone : d = -1 := by
    rw [← BitVec.ofInt_toInt (x := d), hd, BitVec.ofInt_neg]
    rfl
  rw [deltaResult_eq, decWrap_eq hn, hone, sub_eq_add_neg]

/-- `MAXG` is the one word whose number plus 1 leaves the range of n-bit words (R19). -/
theorem eq_maxg_iff_add_one {n : Nat} (hn : 0 < n) (g : BitVec n) :
    g = maxg n ↔ ((fromGrey g).toNat : Int) + 1 = 2 ^ n := by
  have hpos : 0 < 2 ^ n := Nat.two_pow_pos n
  rw [eq_maxg_iff hn]
  norm_cast
  omega

/-- A delta of +1 is in range away from `MAXG` (R172). -/
theorem deltaInRange_of_ne_maxg {n : Nat} (hn : 0 < n) {g d : BitVec n} (hd : d.toInt = 1) (hg : g ≠ maxg n) :
    deltaInRange g d = true := by
  have hne : ((fromGrey g).toNat : Int) + 1 ≠ 2 ^ n := mt (eq_maxg_iff_add_one hn g).mpr hg
  have hlt : ((fromGrey g).toNat : Int) < 2 ^ n := mod_cast (fromGrey g).isLt
  rw [deltaInRange_iff, hd]
  omega

/-- A delta of −1 is in range away from 0 (R172). -/
theorem deltaInRange_of_ne_zero {n : Nat} {g d : BitVec n} (hd : d.toInt = -1) (hg : g ≠ 0) :
    deltaInRange g d = true := by
  have hne : fromGrey g ≠ 0 := fun h => hg (by rw [fromGrey_eq_iff.mp h, toGrey_zero])
  have hpos : (fromGrey g).toNat ≠ 0 := fun h => hne (BitVec.eq_of_toNat_eq h)
  have hlt : ((fromGrey g).toNat : Int) < 2 ^ n := mod_cast (fromGrey g).isLt
  rw [deltaInRange_iff, hd]
  omega

/-- Away from `MAXG`, ADD_DELTA by +1 is INC (R172). -/
theorem exec_addDelta_eq_inc {s : State} {a b : Word} (ha : s.cfg.hasAdd = true) (hb : (portValue s.cfg b).toInt = 1)
    (hne : portValue s.cfg a ≠ maxg s.cfg.W) (b' : Word) : exec (.addDelta a b) s = exec (.inc a b') s := by
  have hW : 0 < s.cfg.W := width_bits_pos s.cfg.width
  rw [exec_addDelta_of_inRange ha (deltaInRange_of_ne_maxg hW hb hne), deltaResult_eq_incWrap hW hb]
  rfl

/-- Away from 0, ADD_DELTA by −1 is DEC (R172). -/
theorem exec_addDelta_eq_dec {s : State} {a b : Word} (ha : s.cfg.hasAdd = true) (hb : (portValue s.cfg b).toInt = -1)
    (hne : portValue s.cfg a ≠ 0) (b' : Word) : exec (.addDelta a b) s = exec (.dec a b') s := by
  rw [exec_addDelta_of_inRange ha (deltaInRange_of_ne_zero hb hne),
    deltaResult_eq_decWrap (width_bits_pos s.cfg.width) hb]
  rfl

/-- Settles O28: in range ADD_DELTA is the stepper; at the boundary the sum is one above the largest word or one
below 0, and INC, DEC, INC_SAT and DEC_SAT give their values there. -/
theorem addDeltaAgreesWithStepperInRange : Obligations.AddDeltaAgreesWithStepperInRange := by
  intro s a b b' ha
  obtain ⟨t, v, hexec, hrsp, -⟩ := (addDeltaAnswersTheSum s a b).1 ha
  refine ⟨fun hb => ⟨fun hne => exec_addDelta_eq_inc ha hb hne b', fun hmax => ?_⟩,
    fun hb => ⟨fun hne => exec_addDelta_eq_dec ha hb hne b', fun hzero => ?_⟩⟩
  · refine ⟨?_, ⟨t, v, hexec, hrsp⟩, ?_, fun hs => ?_⟩
    · rw [hmax, hb]
      exact (eq_maxg_iff_add_one (width_bits_pos s.cfg.width) _).mp rfl
    · rw [← incWrap_maxg, ← hmax]
      rfl
    · rw [exec_incSat_of_hasSat hs, portValue, hmax, incSaturate, if_pos rfl]
  · refine ⟨?_, ⟨t, v, hexec, hrsp⟩, ?_, fun hs => ?_⟩
    · rw [hzero, hb, fromGrey_zero]
      rfl
    · rw [← decWrap_zero, ← hzero]
      rfl
    · rw [exec_decSat_of_hasSat hs, portValue, hzero, decSaturate, if_pos rfl]

end Sys2Proof.Machine
end

/-! ### Proofs of the exceptions family (spec/60_exceptions.md) -/

section
/-! What a response depends on, and what STATUS tells about its request. -/

namespace Sys2Proof.Machine

/-- An ADD_DELTA that draws is the draw for its operands (R171). -/
theorem exec_addDelta_eq_respondDraw {s : State} {a b : Word} (h : drawsResult s.cfg (.addDelta a b) = true) :
    exec (.addDelta a b) s = respondDraw s (portValue s.cfg a) (portValue s.cfg b) := by
  obtain ⟨ha, hr⟩ := Bool.and_eq_true_iff.mp h
  rw [exec, execAddDelta, if_pos ha, if_neg (by simpa using hr)]

/-- Two instances with the same parameters give an instruction the same response and count the same draws, where
a draw is made from equal counters (R21, R48; log 2). -/
theorem exec_congr {i : Instr} {s s' : State} (hc : s.cfg = s'.cfg)
    (hd : drawsResult s.cfg i = true → s.draws = s'.draws) :
    ∃ r k, exec i s = .next ((s.withDraws (s.draws + k)).withResponse r) ∧
      exec i s' = .next ((s'.withDraws (s'.draws + k)).withResponse r) := by
  obtain ⟨c, es, qs, p, l, n⟩ := s
  obtain rfl : c = s'.cfg := hc
  cases hdraw : drawsResult s'.cfg i with
  | false => exact ⟨_, 0, exec_of_not_drawsResult hdraw, exec_of_not_drawsResult hdraw⟩
  | true =>
    obtain rfl : n = s'.draws := hd hdraw
    obtain ⟨a, b, rfl, -⟩ := drawsResult_eq_true_iff.mp hdraw
    exact ⟨_, 1, exec_addDelta_eq_respondDraw hdraw, exec_addDelta_eq_respondDraw hdraw⟩

/-- What `exec` makes of the oldest request is what the step at the block's turn does, and the request's host holds
the response. -/
theorem step_of_exec {s : State} {q : HostRequest} {qs : List HostRequest} {i : Instr} {r : Response} {n : Nat}
    (hs : s.blockTurn = true) (hq : s.accepted = q :: qs) (hi : decodeRequest s.cfg q.req = i)
    (hexec : exec i { s with events := s.events.tail, accepted := qs } =
      .next { s with events := s.events.tail, accepted := qs, rsp := some r, draws := n }) :
    step s = .next { s with
      events := s.events.tail, accepted := qs, rsp := some r, held := hold q.host r s.held, draws := n } := by
  obtain ⟨t, r', hexec', ht, hstep⟩ := step_serves hs hq
  rw [hi] at hexec'
  obtain rfl := Host.Outcome.next.inj (hexec'.symm.trans hexec)
  obtain rfl := Option.some.inj ht
  exact hstep

/-- At the block's turn, two instances with the same parameters and the same oldest request deliver the same
response to its host, whatever was asked before and waits behind it, where a draw is made from equal counters (R48,
R211; log 2). -/
theorem step_congr {s s' : State} {q : HostRequest} {qs qs' : List HostRequest} (hs : s.blockTurn = true)
    (hs' : s'.blockTurn = true) (hq : s.accepted = q :: qs) (hq' : s'.accepted = q :: qs') (hc : s.cfg = s'.cfg)
    (hd : drawsResult s.cfg (decodeRequest s.cfg q.req) = true → s.draws = s'.draws) :
    ∃ r k, step s = .next { s with
        events := s.events.tail, accepted := qs, rsp := some r, held := hold q.host r s.held,
        draws := s.draws + k } ∧
      step s' = .next { s' with
        events := s'.events.tail, accepted := qs', rsp := some r, held := hold q.host r s'.held,
        draws := s'.draws + k } := by
  obtain ⟨r, k, hr, hr'⟩ := exec_congr (s := { s with events := s.events.tail, accepted := qs })
    (s' := { s' with events := s'.events.tail, accepted := qs' }) hc hd
  exact ⟨r, k, step_of_exec hs hq rfl hr, step_of_exec hs' hq' (by rw [hc]) hr'⟩

/-- A delivered response changes nothing for another host (R211). -/
theorem lookup_hold_of_ne {h k : Nat} (hne : k ≠ h) (r : Response) (l : List (Nat × Response)) :
    (hold h r l).lookup k = l.lookup k := by
  rw [lookup_hold, if_neg hne]

/-- A response that the reference meaning allows is ILLEGAL for the reserved encodings and for no other (R201). -/
theorem status_eq_illegal_iff_of_answers {c : Config} {q : Request} {r : Response} (h : Answers c q r) :
    r.status = .illegal ↔ c.isReserved q.op = true := by
  obtain ⟨op, a, b⟩ := q
  have defined (hr : r.status = .ok) (hop : c.isReserved op = false) :
      r.status = .illegal ↔ c.isReserved op = true := by simp [hr, hop]
  have absent (hr : r = illegalAnswer c) (hop : c.isReserved op = true) :
      r.status = .illegal ↔ c.isReserved op = true := by simp [hr, hop, illegalAnswer]
  rcases opcode_cases op with rfl | rfl | rfl | rfl | rfl | rfl | rfl | rfl | h8
  · obtain ⟨v, -, rfl⟩ := h
    exact defined rfl (by simp [Config.isReserved])
  · obtain ⟨v, -, rfl⟩ := h
    exact defined rfl (by simp [Config.isReserved])
  · obtain rfl := h
    exact defined rfl (by simp [Config.isReserved])
  · obtain rfl := h
    exact defined rfl (by simp [Config.isReserved])
  · cases hs : c.hasSat with
    | true =>
      obtain rfl : r = numResponse c _ := by simpa [Answers, hs] using h
      exact defined rfl (by simp [Config.isReserved, hs])
    | false => exact absent (by simpa [Answers, hs] using h) (by simp [Config.isReserved, hs])
  · cases hs : c.hasSat with
    | true =>
      obtain rfl : r = numResponse c _ := by simpa [Answers, hs] using h
      exact defined rfl (by simp [Config.isReserved, hs])
    | false => exact absent (by simpa [Answers, hs] using h) (by simp [Config.isReserved, hs])
  · obtain ⟨hok, -⟩ := h
    exact defined hok (by simp [Config.isReserved])
  · cases ha : c.hasAdd with
    | true =>
      obtain ⟨v, rfl, -⟩ : ∃ v, r = numResponse c v ∧ _ := by simpa [Answers, ha] using h
      exact defined rfl (by simp [Config.isReserved, ha])
    | false => exact absent (by simpa [Answers, ha] using h) (by simp [Config.isReserved, ha])
  · exact absent ((answers_of_eight_le h8 r).mp h) (by simp [Config.isReserved, h8])

end Sys2Proof.Machine
end

section
/-! The obligations of the family: illegal requests, several hosts, and power loss. -/

namespace Sys2Proof.Machine

/-- Settles O29: the reserved row is the ILLEGAL response. -/
theorem reservedAnswersIllegal : Obligations.ReservedAnswersIllegal := by
  intro s op a b
  have hexec : exec (.reserved op a b) s = .next (s.withResponse (illegalResponse s.cfg)) := rfl
  rw [hexec, illegalResponse_eq]
  rfl

/-- Settles O44: both steps are the reset of the same state. -/
theorem powerLossActsAsReset : Obligations.PowerLossActsAsReset :=
  fun _ _ he => ⟨_, step_of_powerLoss he, step_of_reset rfl⟩

/-- Settles O32: every request is answered as the reference meaning says, which fixes STATUS. -/
theorem statusTellsReservedOpcodes : Obligations.StatusTellsReservedOpcodes := by
  intro s q
  obtain ⟨r, n, hexec, hr⟩ := exec_answers q s
  refine ⟨_, r, hexec, rfl, (status_eq_illegal_iff_of_answers hr).trans isReserved_eq_true_iff, ?_⟩
  cases r.status with
  | ok => exact .inr rfl
  | illegal => exact .inl rfl

/-- Settles O31: the illegal request leaves the parameters and the draw counter, on which alone the next response
depends, and what its host received gives way to a second response to that host. -/
theorem illegalRequestLeavesNoTrace : Obligations.IllegalRequestLeavesNoTrace := by
  intro s q q' qs he hq hop
  obtain ⟨c, es, as, p, l, n⟩ := s
  obtain rfl : es = [] := he
  obtain rfl : as = q :: q' :: qs := hq
  obtain ⟨r, k, hu, hv⟩ := step_congr
    (s := ⟨c, [], q' :: qs, some (illegalAnswer c), hold q.host (illegalAnswer c) l, n⟩)
    (s' := ⟨c, [], q' :: qs, p, l, n⟩) rfl rfl rfl rfl rfl fun _ => rfl
  refine ⟨_, _, _, step_of_isReserved rfl rfl hop, hu, hv, rfl, fun hhost => ?_, fun h hne => ?_⟩
  · simp only [← hhost, hold_hold]
  · simp only [State.heldBy, lookup_hold, if_neg hne]

/-- Settles O50: the host's response is the one of the same request on an instance right after reset. -/
theorem hostsShareNothing : Obligations.HostsShareNothing := by
  intro s q qs hs hq
  constructor
  · obtain ⟨r, n, hstep, -⟩ := step_answers hs hq
    exact ⟨_, r, hstep, rfl, lookup_hold_self _ _ _, fun h hne => lookup_hold_of_ne hne _ _⟩
  · intro hrange
    have hd : drawsResult s.cfg (decodeRequest s.cfg q.req) = true → s.draws = 0 := fun hdraw =>
      have ⟨hop, ha, hout⟩ := drawsResult_decodeRequest_eq_true_iff.mp hdraw
      absurd (hrange hop ha) hout
    obtain ⟨r, k, hstep, halone⟩ :=
      step_congr (s' := { State.resetOf s.cfg with accepted := [q] }) hs rfl hq rfl rfl hd
    exact ⟨_, _, hstep, halone, (lookup_hold_self _ _ _).trans (lookup_hold_self _ _ _).symm⟩

/-- Settles O51: serving another host leaves what the host holds, which is all that its read looks at. -/
theorem hostReadsItsOwnResponseOnly : Obligations.HostReadsItsOwnResponseOnly := by
  intro s t q qs h f hs hq hne ht
  obtain ⟨r, n, hstep, -⟩ := step_answers hs hq
  obtain rfl := Host.Outcome.next.inj (hstep.symm.trans ht)
  have hheld : (hold q.host r s.held).lookup h = s.held.lookup h := lookup_hold_of_ne hne _ _
  refine ⟨?_, fun hnone es => (readFaultsOnlyBeforeAResponse _ h f es rfl).1 (hheld.trans hnone)⟩
  simp only [readField, State.heldBy, hheld]

end Sys2Proof.Machine
end

/-! ### Proofs of the reset and hazards family (spec/70_reset_and_hazards.md) -/

section
/-! Runs that answer everything that waits, one step at a time. -/

namespace Sys2Proof.Machine

/-- The delivery goes to the host that asked, and the reference meaning allows its response (R27, R211). -/
def answeredBy (c : Config) (q : HostRequest) (d : Nat × Response) : Prop :=
  d.1 = q.host ∧ Answers c q.req d.2

/-- A host's request as the ports carry it (R25; log 3). -/
def HostRequest.onPorts (c : Config) (q : HostRequest) : HostRequest := ⟨q.host, Machine.onPorts c q.req⟩

/-- What the ports carry of a request comes through them unchanged. -/
theorem onPorts_onPorts (c : Config) (q : Request) : onPorts c (onPorts c q) = onPorts c q :=
  onPorts_eq_self (onPorts_wf c q)

/-- What answers requests is fixed by what the ports carry of them. -/
theorem forall₂_answeredBy_map_onPorts (c : Config) (qs : List HostRequest) (ds : List (Nat × Response)) :
    List.Forall₂ (answeredBy c) (qs.map (·.onPorts c)) ds ↔ List.Forall₂ (answeredBy c) qs ds := by
  have key (q : HostRequest) : answeredBy c (q.onPorts c) = answeredBy c q :=
    funext fun d => congrArg (d.1 = q.host ∧ ·) (answers_onPorts c q.req d.2)
  simp only [List.forall₂_map_left_iff, key]

/-- `k` steps lead from `s` to `t`, and nothing waits at `t`: the deliveries on the way answer the requests that
waited, one by one, and the ports and every host keep the last delivery, or what they had where there was none. -/
structure AnswersAwaited (k : Nat) (s t : State) : Prop where
  run : core.run k s = .next t
  events : t.events = []
  accepted : t.accepted = []
  cfg : t.cfg = s.cfg
  answers : List.Forall₂ (answeredBy s.cfg) s.awaited (deliveries k s)
  rsp : t.rsp = ((deliveries k s).getLast?.map Prod.snd).or s.rsp
  held : ∀ h, t.heldBy h =
    (((deliveries k s).filter fun d => d.1 == h).getLast?.map Prod.snd).or (s.heldBy h)

/-- Everything that waits gets its answer, in at most one step for each event and each request. -/
def State.AllAnswered (s : State) : Prop :=
  ∃ k t, k ≤ s.events.length + s.awaited.length ∧ AnswersAwaited k s t

/-- The last of some deliveries, or what was there before them: a first delivery takes the place of that. -/
theorem getLast?_cons_or (d : Nat × Response) (l : List (Nat × Response)) (o : Option Response) :
    ((d :: l).getLast?.map Prod.snd).or o = (l.getLast?.map Prod.snd).or (some d.2) := by
  rw [List.getLast?_cons]
  cases l.getLast? <;> rfl

/-- A step at which nothing is served delivers nothing. -/
theorem deliveries_succ_of_servedHost_none {s s' : State} (k : Nat) (h : step s = .next s')
    (hs : s.servedHost = none) : deliveries (k + 1) s = deliveries k s' := by
  rw [deliveries_succ_of_next k h, hs]
  rfl

/-- A step that serves a host delivers what the host then holds. -/
theorem deliveries_succ_of_servedHost_some {s s' : State} {h : Nat} {r : Response} (k : Nat)
    (hstep : step s = .next s') (hs : s.servedHost = some h) (hr : s'.heldBy h = some r) :
    deliveries (k + 1) s = (h, r) :: deliveries k s' := by
  rw [deliveries_succ_of_next k hstep, hs]
  simp [hr]

/-- An event that serves nothing and loses none of the waiting requests leaves all to be answered after it. -/
theorem State.AllAnswered.of_event {s : State} {e : Event} {es : List Event} {as : List HostRequest}
    (he : s.events = e :: es) (hstep : step s = .next ((s.withEvents es).withAccepted as))
    (hserved : s.servedHost = none)
    (hwait : ((s.withEvents es).withAccepted as).awaited.map (·.onPorts s.cfg) =
      s.awaited.map (·.onPorts s.cfg))
    (hrest : ((s.withEvents es).withAccepted as).AllAnswered) : s.AllAnswered := by
  obtain ⟨k, t, hk, h⟩ := hrest
  have hdel := deliveries_succ_of_servedHost_none k hstep hserved
  have hlen := congrArg List.length hwait
  rw [List.length_map, List.length_map] at hlen
  refine ⟨k + 1, t, ?_, (run_succ_of_next k hstep).trans h.run, h.events, h.accepted, h.cfg, ?_,
    hdel ▸ h.rsp, hdel ▸ h.held⟩
  · rw [he, List.length_cons, ← hlen, Nat.add_right_comm]
    exact Nat.succ_le_succ hk
  · rw [hdel, ← forall₂_answeredBy_map_onPorts, ← hwait, forall₂_answeredBy_map_onPorts]
    exact h.answers

/-- At the block's turn the oldest accepted request is the first that waits. -/
theorem awaited_of_blockTurn {s : State} {q : HostRequest} {qs : List HostRequest} (hs : s.blockTurn = true)
    (hq : s.accepted = q :: qs) : s.awaited = q :: (qs ++ s.events.tail.filterMap Event.presents) := by
  rw [State.awaited, hq, List.cons_append]
  cases he : s.events with
  | nil => rfl
  | cons e es =>
    cases e with
    | serve => rfl
    | request k q => simp [State.blockTurn, he] at hs
    | read k f => simp [State.blockTurn, he] at hs
    | reset => simp [State.blockTurn, he] at hs
    | powerLoss => simp [State.blockTurn, he] at hs

/-- Where all behind the oldest request are answered after it, whatever its response, all are answered. -/
theorem State.AllAnswered.of_serve {s : State} {q : HostRequest} {qs : List HostRequest}
    (hs : s.blockTurn = true) (hq : s.accepted = q :: qs)
    (hrest : ∀ r n, ({ s with
      events := s.events.tail, accepted := qs, rsp := some r, held := hold q.host r s.held,
      draws := n } : State).AllAnswered) : s.AllAnswered := by
  obtain ⟨r, n, hstep, hr⟩ := step_answers hs hq
  obtain ⟨k, t, hk, h⟩ := hrest r n
  have hserved : s.servedHost = some q.host := by simp [State.servedHost, hs, hq]
  have hdel := deliveries_succ_of_servedHost_some k hstep hserved (lookup_hold_self _ _ _)
  have hwait := awaited_of_blockTurn hs hq
  refine ⟨k + 1, t, ?_, (run_succ_of_next k hstep).trans h.run, h.events, h.accepted, h.cfg, ?_, ?_,
    fun j => ?_⟩
  · have htail : s.events.tail.length ≤ s.events.length := by simp
    rw [hwait, List.length_cons]
    exact (Nat.succ_le_succ hk).trans (Nat.succ_le_succ (Nat.add_le_add_right htail _))
  · rw [hwait, hdel]
    exact .cons ⟨rfl, hr⟩ h.answers
  · rw [hdel, getLast?_cons_or]
    exact h.rsp
  · rw [hdel, h.held j, List.filter_cons]
    by_cases hj : j = q.host
    · subst hj
      rw [if_pos (beq_self_eq_true _), getLast?_cons_or]
      exact congrArg _ (lookup_hold_self _ _ _)
    · rw [if_neg (by simpa using Ne.symm hj)]
      exact congrArg _ (lookup_hold_of_ne hj _ _)

/-- With silent hosts the block answers all it has accepted, by induction on the accepted requests (log 4). -/
theorem allAnswered_of_silent {s : State} (he : s.events = []) : s.AllAnswered := by
  generalize hq : s.accepted = qs
  induction qs generalizing s with
  | nil =>
    have hwait : s.awaited = [] := by simp [State.awaited, he, hq]
    exact ⟨0, s, Nat.zero_le _, rfl, he, hq, rfl, hwait ▸ .nil, rfl, fun _ => rfl⟩
  | cons q qs ih =>
    exact .of_serve (by rw [State.blockTurn, he]) hq fun r n => ih (congrArg List.tail he) rfl

/-- Under an orderly schedule all requests are answered, by induction on the events to come. -/
theorem allAnswered_of_orderly {s : State} (h : s.orderly = true) : s.AllAnswered := by
  generalize he : s.events = es
  rw [State.orderly, he] at h
  induction es generalizing s with
  | nil => exact allAnswered_of_silent he
  | cons e es ih =>
    cases e with
    | request k q =>
      refine .of_event he (step_of_request he) (by simp [State.servedHost, State.blockTurn, he]) ?_ (ih ?_ rfl)
      · simp [State.awaited, he, Event.presents, HostRequest.onPorts, onPorts_onPorts]
      · simpa [orderlyFrom] using h
    | serve =>
      have hs : s.blockTurn = true := by rw [State.blockTurn, he]
      cases hq : s.accepted with
      | nil =>
        have hidle : step s = .next ((s.withEvents es).withAccepted s.accepted) := by
          rw [step_of_blockTurn hs, he]
          exact serve_nil hq
        refine .of_event he hidle (by simp [State.servedHost, hq]) ?_ (ih ?_ rfl)
        · simp [State.awaited, he, List.filterMap_cons, Event.presents]
        · simpa [hq, orderlyFrom] using h
      | cons q qs =>
        refine .of_serve hs hq fun r n => ih ?_ (by simp [he])
        rw [hq] at h
        rw [← h]
        exact orderlyFrom_congr fun j => (mem_hosts_hold _ j r _).trans List.mem_cons.symm
    | read k f =>
      obtain ⟨hk, hrest⟩ := Bool.and_eq_true_iff.mp h
      have hsome : (s.heldBy k).isSome = true := (heldBy_isSome s k).mpr (List.contains_iff_mem.mp hk)
      have hread : step s = .next ((s.withEvents es).withAccepted s.accepted) := by
        rw [step_of_read he]
        exact hostRead_eq_next.mpr ⟨hsome, rfl⟩
      refine .of_event he hread (by simp [State.servedHost, State.blockTurn, he]) ?_ (ih hrest rfl)
      simp [State.awaited, he, List.filterMap_cons, Event.presents]
    | reset => cases h
    | powerLoss => cases h

end Sys2Proof.Machine
end

section
/-! The obligations of the family. -/

namespace Sys2Proof.Machine

/-- The block's turn always gives a next state, with the same parameters. -/
theorem serve_next_cfg (s : State) : ∃ t, serve s = .next t ∧ t.cfg = s.cfg := by
  cases hq : s.accepted with
  | nil => exact ⟨s, serve_nil hq, rfl⟩
  | cons q qs =>
    obtain ⟨r, n, hserve, -⟩ := serve_next hq
    exact ⟨_, hserve, rfl⟩

theorem prematureRead_of_read {s : State} {h : Nat} {f : RspField} {es : List Event}
    (he : s.events = .read h f :: es) : s.prematureRead = (s.heldBy h).isNone := by
  rw [State.prematureRead, he]

/-- A premature read is the next event, and its host holds nothing. -/
theorem exists_read_of_prematureRead {s : State} (h : s.prematureRead = true) :
    ∃ k f es, s.events = .read k f :: es ∧ s.heldBy k = none := by
  rw [State.prematureRead] at h
  split at h
  · rename_i k f es he
    exact ⟨k, f, es, he, Option.isNone_iff_eq_none.mp h⟩
  · cases h

/-- Settles O39 by the run that answers all that waits: where a request waits there is a delivery, and the ports keep
the last one. -/
theorem everyAcceptedRequestIsAnswered : Obligations.EveryAcceptedRequestIsAnswered := by
  intro s hs
  obtain ⟨k, t, hk, h⟩ := allAnswered_of_orderly hs
  refine ⟨k, t, hk, h.run, h.events, h.accepted, h.cfg, h.answers, fun hwait => ?_, h.held⟩
  have hdel : deliveries k s ≠ [] := fun hnil => hwait (List.forall₂_nil_right_iff.mp (hnil ▸ h.answers))
  rw [h.rsp, List.getLast?_eq_some_getLast hdel]
  rfl

/-- Settles O45: the first step accepts the request, and the second is the block's turn. -/
theorem firstRequestAfterResetIsAnswered : Obligations.FirstRequestAfterResetIsAnswered := by
  intro c h q hq
  have haccept : step { State.resetOf c with events := [.request h q] } =
      .next { State.resetOf c with accepted := [⟨h, q⟩] } := by
    rw [step_of_request rfl, acceptRequest_eq_next]
    simp only [State.withEvents_cfg, State.resetOf_cfg, onPorts_eq_self hq]
    rfl
  obtain ⟨r, n, hserve, hr⟩ :=
    step_answers (s := { State.resetOf c with accepted := [⟨h, q⟩] }) rfl rfl
  exact ⟨_, r, (run_succ_of_next 1 haccept).trans (run_succ_of_next 0 hserve), rfl, lookup_hold_self _ _ _, hr,
    rfl⟩

/-- Settles O46: no case of what a step can do touches the parameters. -/
theorem parametersNeverChange : Obligations.ParametersNeverChange := by
  intro s t h
  rcases step_cases h with ⟨-, ht⟩ | ⟨-, e, es, -, ⟨k, q, -, ht⟩ | ⟨k, f, -, -, rfl⟩ | ⟨-, ht⟩⟩
  · obtain ⟨t', ht', hcfg⟩ := serve_next_cfg (s.withEvents s.events.tail)
    obtain rfl := Host.Outcome.next.inj (ht'.symm.trans ht)
    exact hcfg
  · obtain rfl := acceptRequest_eq_next.mp ht
    rfl
  · rfl
  · obtain ⟨hcfg, -⟩ := applyReset_eq_next.mp ht
    exact hcfg

/-- Settles O47: of the events only a read can stop the machine, and only where its host holds nothing. -/
theorem stepStopsOnlyOnPrematureReads : Obligations.StepStopsOnlyOnPrematureReads := by
  intro s
  have turn (hs : s.blockTurn = true) : ∃ t, step s = .next t := by
    obtain ⟨t, ht, -⟩ := serve_next_cfg (s.withEvents s.events.tail)
    exact ⟨t, (step_of_blockTurn hs).trans ht⟩
  constructor
  · intro hread
    cases he : s.events with
    | nil => exact turn (by rw [State.blockTurn, he])
    | cons e es =>
      cases e with
      | request k q => exact ⟨_, step_of_request he⟩
      | serve => exact turn (by rw [State.blockTurn, he])
      | read k f =>
        rw [prematureRead_of_read he, Option.isNone_eq_false_iff] at hread
        obtain ⟨r, hr⟩ := Option.isSome_iff_exists.mp hread
        exact ⟨_, ((readFaultsOnlyBeforeAResponse s k f es he).2 r hr).1⟩
      | reset => exact ⟨_, step_of_reset he⟩
      | powerLoss => exact ⟨_, step_of_powerLoss he⟩
  · intro hread
    obtain ⟨k, f, es, he, hnone⟩ := exists_read_of_prematureRead hread
    exact (readFaultsOnlyBeforeAResponse s k f es he).1 hnone

/-- Settles O43: what `applyReset` leaves. -/
theorem resetDropsAcceptedRequests : Obligations.ResetDropsAcceptedRequests :=
  fun _ _ he => ⟨_, step_of_reset he, rfl, rfl, fun _ => rfl, rfl, rfl⟩

end Sys2Proof.Machine
end

/-! ### Proofs of the remaining statements: decoder and encoder, assembler, building an instance -/

section
/-! What unpacking a word and packing a request do to each other (R61). -/

namespace Sys2Proof.Machine

/-- A request is known by the numbers in its fields. -/
theorem request_eq_of_toNat_eq {q r : Request} (hop : q.op.toNat = r.op.toNat) (ha : q.a.toNat = r.a.toNat)
    (hb : q.b.toNat = r.b.toNat) : q = r := by
  cases q
  cases r
  rw [Request.mk.injEq]
  exact ⟨BitVec.eq_of_toNat_eq hop, BitVec.eq_of_toNat_eq ha, BitVec.eq_of_toNat_eq hb⟩

/-- A number that W wires can carry keeps its value in a container. -/
theorem toNat_ofNat_of_lt {c : Config} {x : Nat} (h : x < 2 ^ c.W) : (BitVec.ofNat 64 x).toNat = x :=
  Nat.mod_eq_of_lt (Nat.lt_of_lt_of_le h (Nat.pow_le_pow_right (by decide) (width_bits_le c.width)))

theorem fits_ofNat {c : Config} {x : Nat} (h : x < 2 ^ c.W) : c.fits (BitVec.ofNat 64 x) = true := by
  rwa [fits_eq_true_iff, toNat_ofNat_of_lt h]

theorem toNat_unpackRequest_op (c : Config) (w : Nat) : (unpackRequest c w).op.toNat = w % 2 ^ 4 :=
  BitVec.toNat_ofNat w 4

theorem toNat_unpackRequest_a (c : Config) (w : Nat) : (unpackRequest c w).a.toNat = w / 2 ^ 4 % 2 ^ c.W := by
  rw [unpackRequest, toNat_ofNat_of_lt (Nat.mod_lt _ (Nat.two_pow_pos _)), Nat.shiftRight_eq_div_pow]

theorem toNat_unpackRequest_b (c : Config) (w : Nat) :
    (unpackRequest c w).b.toNat = w / 2 ^ (c.W + 4) % 2 ^ c.W := by
  rw [unpackRequest, toNat_ofNat_of_lt (Nat.mod_lt _ (Nat.two_pow_pos _)), Nat.shiftRight_eq_div_pow]

/-- Every word unpacks to a request that the ports can carry. -/
theorem unpackRequest_wf (c : Config) (w : Nat) : (unpackRequest c w).wf c = true :=
  Bool.and_eq_true_iff.mpr
    ⟨fits_ofNat (Nat.mod_lt _ (Nat.two_pow_pos _)), fits_ofNat (Nat.mod_lt _ (Nat.two_pow_pos _))⟩

/-- Unpacking reads back what packing wrote (R61). -/
theorem unpackRequest_packRequest {c : Config} {r : Request} (h : r.wf c = true) :
    unpackRequest c (packRequest c r) = r := by
  obtain ⟨hop, ha, hb, -⟩ := packRequest_fields h
  obtain ⟨-, hfits⟩ := Bool.and_eq_true_iff.mp h
  refine request_eq_of_toNat_eq ?_ ?_ ?_
  · rw [toNat_unpackRequest_op, hop]
  · rw [toNat_unpackRequest_a, ha]
  · rw [toNat_unpackRequest_b, hb, Nat.mod_eq_of_lt (fits_eq_true_iff.mp hfits)]

/-- A number is its bits from `k` up, put above its low `k` bits. -/
theorem div_shiftLeft_or_mod_two_pow (w k : Nat) : (w / 2 ^ k) <<< k ||| w % 2 ^ k = w := by
  rw [← Nat.shiftLeft_add_eq_or_of_lt (Nat.mod_lt _ (Nat.two_pow_pos _)), Nat.shiftLeft_eq, Nat.div_add_mod']

/-- Packing puts back what unpacking read, since the three fields are all of the word's bits (R61). -/
theorem packRequest_unpackRequest {c : Config} {w : Nat} (h : w < 2 ^ requestBits c) :
    packRequest c (unpackRequest c w) = w := by
  have hb : w / 2 ^ (c.W + 4) < 2 ^ c.W := by
    refine Nat.div_lt_of_lt_mul ?_
    rwa [← Nat.pow_add, Nat.add_right_comm, ← Nat.two_mul]
  rw [packRequest_eq, toNat_unpackRequest_op, toNat_unpackRequest_a, toNat_unpackRequest_b, Nat.mod_eq_of_lt hb,
    Nat.add_comm c.W 4, Nat.pow_add, ← Nat.div_div_eq_div_mul, div_shiftLeft_or_mod_two_pow,
    div_shiftLeft_or_mod_two_pow]

end Sys2Proof.Machine
end

section
/-! The decoder's rows and the instructions they give (R65, R66), and `decode` against `encode`. -/

namespace Sys2Proof.Machine

/-- Decoding the request that issues a well-formed instruction gives the instruction (R65). -/
theorem decodeRequest_toRequest {c : Config} {i : Instr} (h : i.wf c = true) : decodeRequest c i.toRequest = i :=
  match i with
  | .toGrey a b => Laws.DecodesBack.toGrey a b c h
  | .fromGrey a b => Laws.DecodesBack.fromGrey a b c h
  | .inc a b => Laws.DecodesBack.inc a b c h
  | .dec a b => Laws.DecodesBack.dec a b c h
  | .incSat a b => Laws.DecodesBack.incSat a b c h
  | .decSat a b => Laws.DecodesBack.decSat a b c h
  | .render a b => Laws.DecodesBack.render a b c h
  | .addDelta a b => Laws.DecodesBack.addDelta a b c h
  | .reserved op a b => Laws.DecodesBack.reserved op a b c h

/-- The instruction a request decodes to is issued by that request, and is well formed where the request is
(R65, R66). -/
theorem decodeRequest_spec (c : Config) (r : Request) :
    (decodeRequest c r).toRequest = r ∧ (decodeRequest c r).wf c = r.wf c := by
  obtain ⟨op, a, b⟩ := r
  cases hr : c.isReserved op with
  | true =>
    rw [decodeRequest_of_isReserved hr]
    exact ⟨rfl, by rw [Instr.wf, Request.wf, hr, Bool.true_and]⟩
  | false =>
    rcases opcode_cases op with rfl | rfl | rfl | rfl | rfl | rfl | rfl | rfl | h8
    on_goal 9 => exact absurd (isReserved_eq_true_iff.mpr (.inl h8)) (Bool.eq_false_iff.mp hr)
    on_goal 8 =>
      have ha : c.hasAdd = true := by simpa [Config.isReserved] using hr
      rw [show decodeRequest c ⟨7, a, b⟩ = .addDelta a b from if_pos ha]
      exact ⟨rfl, by rw [Instr.wf, ha, Bool.true_and, Request.wf]⟩
    on_goal 6 =>
      have hs : c.hasSat = true := by simpa [Config.isReserved] using hr
      rw [show decodeRequest c ⟨5, a, b⟩ = .decSat a b from if_pos hs]
      exact ⟨rfl, by rw [Instr.wf, hs, Bool.true_and, Request.wf]⟩
    on_goal 5 =>
      have hs : c.hasSat = true := by simpa [Config.isReserved] using hr
      rw [show decodeRequest c ⟨4, a, b⟩ = .incSat a b from if_pos hs]
      exact ⟨rfl, by rw [Instr.wf, hs, Bool.true_and, Request.wf]⟩
    all_goals exact ⟨rfl, rfl⟩

theorem decode_of_lt {c : Config} {w : Nat} (h : w < 2 ^ requestBits c) :
    decode c w = .ok (decodeRequest c (unpackRequest c w)) := if_pos h

theorem decode_of_le {c : Config} {w : Nat} (h : 2 ^ requestBits c ≤ w) : decode c w = .error (.tooLong w) :=
  if_neg (Nat.not_lt.mpr h)

/-- Settles O5: unpacking undoes packing, and the decoder gives back the instruction that issued the request. -/
theorem decodeOfEncodeIsIdentity : Obligations.DecodeOfEncodeIsIdentity := by
  intro c i hi
  have hwf : i.toRequest.wf c = true := toRequest_wf hi
  obtain ⟨-, -, -, hlt⟩ := packRequest_fields hwf
  rw [encode, decode_of_lt hlt, unpackRequest_packRequest hwf, decodeRequest_toRequest hi]

/-- Settles O6: the decoded instruction issues the unpacked request, whose packed word is the word itself. -/
theorem everyRequestWordIsDecoded : Obligations.EveryRequestWordIsDecoded := by
  intro c w
  refine ⟨fun hw => ?_, decode_of_le⟩
  obtain ⟨hreq, hwf⟩ := decodeRequest_spec c (unpackRequest c w)
  refine ⟨_, decode_of_lt hw, hwf.trans (unpackRequest_wf c w), ?_⟩
  rw [encode, hreq, packRequest_unpackRequest hw]

/-- Settles O1: each listed word, evaluated. -/
theorem programListingWordsDecode : Obligations.ProgramListingWordsDecode :=
  ⟨rfl, rfl, rfl, rfl, rfl, rfl, rfl, rfl, rfl⟩

end Sys2Proof.Machine
end

section
/-! The assembler's lines, form by form (R68). -/

namespace Sys2Proof.Machine

theorem unsignedInRange_eq_true_iff {c : Config} {a : Nat} : unsignedInRange c a = true ↔ a < 2 ^ c.W :=
  decide_eq_true_iff

theorem signedInRange_eq_true_iff {c : Config} {d : Int} :
    signedInRange c d = true ↔ -(2 ^ (c.W - 1)) ≤ d ∧ d < 2 ^ (c.W - 1) := by
  rw [signedInRange, decide_eq_true_iff, Int.le_sub_one_iff]

theorem assembleUnary_eq (c : Config) (op : BitVec 4) (a : Nat) :
    assembleUnary c op a = if a < 2 ^ c.W then .ok ⟨op, BitVec.ofNat 64 a, 0⟩ else .error .outOfRange := by
  simp only [assembleUnary, unsignedInRange_eq_true_iff]

theorem assemble_addDelta_eq (c : Config) (a : Nat) (d : Int) :
    assemble c (.addDelta a d) =
      if a < 2 ^ c.W ∧ -(2 ^ (c.W - 1)) ≤ d ∧ d < 2 ^ (c.W - 1) then
        .ok ⟨0x7, BitVec.ofNat 64 a, encodeDelta c d⟩
      else .error .outOfRange := by
  simp only [assemble, Bool.and_eq_true_iff, unsignedInRange_eq_true_iff, signedInRange_eq_true_iff]
  rfl

theorem assemble_raw_eq (c : Config) (n a b : Nat) :
    assemble c (.raw n a b) =
      if n < 16 ∧ a < 2 ^ c.W ∧ b < 2 ^ c.W then
        .ok ⟨BitVec.ofNat 4 n, BitVec.ofNat 64 a, BitVec.ofNat 64 b⟩
      else .error .outOfRange := by
  simp only [assemble, Bool.and_eq_true_iff, decide_eq_true_iff, unsignedInRange_eq_true_iff, and_assoc]

/-- The lines of the seven mnemonics with one operand, with the opcodes R64 gives them. -/
def unaryLines (a : Nat) : List (AsmLine × BitVec 4) :=
  [(.toGrey a, 0x0), (.fromGrey a, 0x1), (.inc a, 0x2), (.dec a, 0x3), (.incSat a, 0x4), (.decSat a, 0x5),
    (.render a, 0x6)]

theorem assemble_of_mem_unaryLines {a : Nat} {l : AsmLine} {op : BitVec 4} (h : (l, op) ∈ unaryLines a)
    (c : Config) : assemble c l = assembleUnary c op a := by
  simp only [unaryLines, List.mem_cons, Prod.mk.injEq, List.not_mem_nil, or_false] at h
  rcases h with ⟨rfl, rfl⟩ | ⟨rfl, rfl⟩ | ⟨rfl, rfl⟩ | ⟨rfl, rfl⟩ | ⟨rfl, rfl⟩ | ⟨rfl, rfl⟩ | ⟨rfl, rfl⟩ <;> rfl

/-- `B = d mod 2^W` is the two's complement of `d` in a container (R68). -/
theorem encodeDelta_eq (c : Config) (d : Int) : encodeDelta c d = toWord (BitVec.ofInt c.W d) := by
  have hlt : (BitVec.ofInt c.W d).toNat < 2 ^ c.W := (BitVec.ofInt c.W d).isLt
  apply BitVec.eq_of_toNat_eq
  rw [toNat_toWord, ← toNat_ofNat_of_lt hlt, BitVec.toNat_ofInt, encodeDelta]
  norm_cast

theorem fits_toWord (c : Config) (v : BitVec c.W) : c.fits (toWord v) = true := by
  rw [fits_eq_true_iff, toNat_toWord]
  exact v.isLt

/-- A delta in range reads back from the ports (R17, R68). -/
theorem toInt_encodeDelta {c : Config} {d : Int} (hlow : -(2 ^ (c.W - 1)) ≤ d) (hhigh : d < 2 ^ (c.W - 1)) :
    ((encodeDelta c d).setWidth c.W).toInt = d := by
  have hport : (encodeDelta c d).setWidth c.W = BitVec.ofInt c.W d := by
    rw [encodeDelta_eq]
    exact portValue_toWord c _
  rw [hport]
  exact BitVec.toInt_ofInt_eq_self (width_bits_pos c.width) hlow hhigh

theorem assembleUnary_wf {c : Config} {op : BitVec 4} {a : Nat} {q : Request} (h : assembleUnary c op a = .ok q) :
    q.wf c = true := by
  rw [assembleUnary_eq] at h
  split at h
  case isTrue ha =>
    cases h
    exact Bool.and_eq_true_iff.mpr ⟨fits_ofNat ha, fits_ofNat (Nat.two_pow_pos _)⟩
  case isFalse => cases h

/-- What the assembler gives is a request of the instance (R68). -/
theorem assemble_wf {c : Config} {l : AsmLine} {q : Request} (h : assemble c l = .ok q) : q.wf c = true := by
  cases l
  case addDelta a d =>
    rw [assemble_addDelta_eq] at h
    split at h
    case isTrue hin =>
      obtain ⟨ha, -⟩ := hin
      cases h
      exact Bool.and_eq_true_iff.mpr ⟨fits_ofNat ha, encodeDelta_eq c d ▸ fits_toWord c _⟩
    case isFalse => cases h
  case raw n a b =>
    rw [assemble_raw_eq] at h
    split at h
    case isTrue hin =>
      obtain ⟨-, ha, hb⟩ := hin
      cases h
      exact Bool.and_eq_true_iff.mpr ⟨fits_ofNat ha, fits_ofNat hb⟩
    case isFalse => cases h
  all_goals exact assembleUnary_wf h

/-- Settles O7: each form of line by its equation, and the literals read back from their containers. -/
theorem assembledLinesCarryTheirLiterals : Obligations.AssembledLinesCarryTheirLiterals := by
  intro c
  refine ⟨fun a l op hl => ?_, fun a d ha hlow hhigh => ?_, fun a d hout => ?_, fun n a b hn ha hb => ?_,
    fun n a b hout => ?_, fun _ _ => assemble_wf⟩
  · rw [assemble_of_mem_unaryLines hl, assembleUnary_eq]
    exact ⟨fun ha => ⟨_, if_pos ha, rfl, toNat_ofNat_of_lt ha, rfl⟩, fun ha => if_neg (Nat.not_lt.mpr ha)⟩
  · rw [assemble_addDelta_eq]
    exact ⟨_, if_pos ⟨ha, hlow, hhigh⟩, rfl, toNat_ofNat_of_lt ha, toInt_encodeDelta hlow hhigh⟩
  · rw [assemble_addDelta_eq]
    refine if_neg fun ⟨ha, hlow, hhigh⟩ => ?_
    rcases hout with h | h | h
    exacts [not_le.mpr ha h, not_lt.mpr hlow h, not_le.mpr hhigh h]
  · rw [assemble_raw_eq]
    exact ⟨_, if_pos ⟨hn, ha, hb⟩, Nat.mod_eq_of_lt hn, toNat_ofNat_of_lt ha, toNat_ofNat_of_lt hb⟩
  · rw [assemble_raw_eq]
    refine if_neg fun ⟨hn, ha, hb⟩ => ?_
    rcases hout with h | h | h
    exacts [not_le.mpr hn h, not_le.mpr ha h, not_le.mpr hb h]

end Sys2Proof.Machine
end

section
/-! Building an instance (R200). -/

namespace Sys2Proof.Machine

/-- Settles O8: the four legal widths are the four rows of `Config.build`. -/
theorem onlyLegalWidthsAreBuilt : Obligations.OnlyLegalWidthsAreBuilt := by
  intro w hasSat hasAdd z l
  constructor
  · rintro (rfl | rfl | rfl | rfl) <;> exact ⟨_, rfl, rfl, rfl, rfl, rfl, rfl⟩
  · intro hw
    unfold Config.build
    split
    case h_5 => rfl
    all_goals exact absurd (by decide) hw

end Sys2Proof.Machine
end
